-- ==== Sys2Proof/Config.lean ====
section
/-! DEFINITION. Config: the parameters of spec/00_scope.md R5, at the values this hardware takes.

There is no free value here: no result of this machine is left unconstrained (R123; "No behaviour in
this machine is treated as 'any value'", 93_implementation_defined.md). MEM_CAP, INQ_CAP and OUT_CAP
are unbounded (R5, R51; log entry 12) and so have no constant. -/

namespace Sys2Proof.Config

/-- XLEN, the width in bits of every value (R4; D1, log entry 3: DESIGN CHOICE among widths of at least 64). -/
abbrev xlen : Nat := 64

/-- INT_MIN = -2^(XLEN-1) (R4). -/
abbrev intMin : Int := -9223372036854775808

/-- INT_MAX = 2^(XLEN-1) - 1 (R4). -/
abbrev intMax : Int := 9223372036854775807

/-- ADDR_MAX, the largest valid address, is INT_MAX (R5, R50). -/
abbrev addrMax : Nat := 9223372036854775807

/-- MAX_ARITY, the largest number of operands (R5). -/
abbrev maxArity : Nat := 3

end Sys2Proof.Config
end

