-- ==== Sys2Proof/Word.lean ====
section
/-! DEFINITION. Word: one value of the machine, a signed integer of XLEN bits (R4, R8).

A value is held as a bit vector of its exact width, so that no state holds a value outside the range;
it is read as a signed integer by `BitVec.toInt`, every computation is exact over `Int` (R8), and the
result is tested with `fits` before it is narrowed again (R9). -/

namespace Sys2Proof

/-- A value: a cell, IP, RB, a queue entry, an output value (R4). -/
abbrev Word := BitVec Config.xlen

/-- `fits v` of R9: INT_MIN ≤ v ≤ INT_MAX. -/
abbrev fits (v : Int) : Prop := Config.intMin ≤ v ∧ v ≤ Config.intMax

/-- The value whose signed integer is `v`, for a `v` that fits. -/
abbrev Word.ofInt (v : Int) : Word := BitVec.ofInt Config.xlen v

end Sys2Proof
end

