-- ==== Sys2Proof/Syntax.lean ====
section
/-! DEFINITION. Syntax: the ten instructions (R2), the three parameter modes, the reasons a word is no
instruction (R92), and the lines of the spec's assembly notation (R96, R97).

An instruction is what decoding gives: "an Opcode and, for each operand position required by that
Opcode, a Parameter Mode" (R112). Decoding reads one cell and "must not read ahead" (R94), so the raw
operands are no part of it: they are read from memory when the instruction runs (R115; log entry 1). -/

namespace Sys2Proof

/-- The three parameter modes (R2, R86). -/
inductive Mode where
  | position
  | immediate
  | relative
  deriving DecidableEq, Repr

/-- The ten operation names (R2). -/
inductive Opcode where
  | add | mul | input | output | jt | jf | lt | eq | arb | halt
  deriving DecidableEq, Repr

/-- The ten instructions, one constructor per row of opcode_table.json; the arguments are the modes of the
operands in operand order (R84, R87). -/
inductive Instr where
  /-- ADD (R140). -/
  | add (a b dst : Mode)
  /-- MUL (R141). -/
  | mul (a b dst : Mode)
  /-- IN (R150). -/
  | input (dst : Mode)
  /-- OUT (R152). -/
  | output (a : Mode)
  /-- JT (R160). -/
  | jt (a target : Mode)
  /-- JF (R161). -/
  | jf (a target : Mode)
  /-- LT (R170). -/
  | lt (a b dst : Mode)
  /-- EQ (R171). -/
  | eq (a b dst : Mode)
  /-- ARB (R180). -/
  | arb (a : Mode)
  /-- HALT (R190). -/
  | halt
  deriving DecidableEq, Repr

/-- The operation an instruction names. -/
def Instr.opcode : Instr → Opcode
  | .add _ _ _ => .add
  | .mul _ _ _ => .mul
  | .input _ => .input
  | .output _ => .output
  | .jt _ _ => .jt
  | .jf _ _ => .jf
  | .lt _ _ _ => .lt
  | .eq _ _ _ => .eq
  | .arb _ => .arb
  | .halt => .halt

/-- The modes of an instruction's operands, operand 1 first. -/
def Instr.modes : Instr → List Mode
  | .add a b d => [a, b, d]
  | .mul a b d => [a, b, d]
  | .input d => [d]
  | .output a => [a]
  | .jt a t => [a, t]
  | .jf a t => [a, t]
  | .lt a b d => [a, b, d]
  | .eq a b d => [a, b, d]
  | .arb a => [a]
  | .halt => []

/-- The mode of an instruction's write operand, for the five that have one (R87). -/
def Instr.writeMode : Instr → Option Mode
  | .add _ _ d => some d
  | .mul _ _ d => some d
  | .input d => some d
  | .output _ => none
  | .jt _ _ => none
  | .jf _ _ => none
  | .lt _ _ d => some d
  | .eq _ _ d => some d
  | .arb _ => none
  | .halt => none

/-- Why a word is no legal instruction word: classes 1 and 2, 3, and 4 of R92. -/
inductive DecodeError where
  /-- The word is negative or its opcode is unknown (R88, R89). -/
  | invalidOpcode
  /-- A mode digit is 3 to 9, or a surplus digit is not 0 (R90, R91). -/
  | invalidMode
  /-- The write operand's mode is Immediate (R114). -/
  | invalidWriteTarget
  deriving DecidableEq, Repr

/-- An operand of the assembly notation: a mode and the content of the operand cell (R96). -/
structure AsmOperand where
  mode : Mode
  raw : Int
  deriving DecidableEq, Repr

/-- A line of the assembly notation (R96, R97): an instruction with its operands, or DATA. -/
inductive AsmLine where
  | add (s1 s2 d : AsmOperand)
  | mul (s1 s2 d : AsmOperand)
  | input (d : AsmOperand)
  | output (s : AsmOperand)
  | jt (s t : AsmOperand)
  | jf (s t : AsmOperand)
  | lt (s1 s2 d : AsmOperand)
  | eq (s1 s2 d : AsmOperand)
  | arb (s : AsmOperand)
  | halt
  | data (values : List Int)
  deriving DecidableEq, Repr

end Sys2Proof
end

