-- ==== Sys2Proof/WellFormed.lean ====
section
/-! DEFINITION. WellFormed: the one check on an instruction, that its write operand is not Immediate
("A write operand may use Position or Relative only", R87; R114). -/

namespace Sys2Proof

/-- No write operand is in Immediate mode (R87, R114). -/
def Instr.wellFormed (i : Instr) : Bool :=
  match i.writeMode with
  | some .immediate => false
  | some .position => true
  | some .relative => true
  | none => true

end Sys2Proof
end

