-- ==== Sys2Proof/Decode.lean ====
section
/-! DEFINITION. Decode: from an instruction word to an instruction or a named reason (R81, R84 to R92),
then the encoder from the same tables, and the spec's assembly notation (R96, R97).

The encoding is decimal: fields are decimal digits and not bits (R7, R81). -/

namespace Sys2Proof

/-- The opcode map of R85, the one place where opcode numbers stand. 5, 6, 7 and 9 are "[from general
knowledge, not in source]" by the spec's own mark (D9; log entry 8: PRESUMED). -/
def opcodeTable : List (Nat × Opcode) :=
  [(1, .add), (2, .mul), (3, .input), (4, .output), (5, .jt), (6, .jf), (7, .lt), (8, .eq),
   (9, .arb), (99, .halt)]

/-- The mode digits of R86. Digit 2 is from general knowledge by the spec's own mark (D9; log entry 8). -/
def modeTable : List (Nat × Mode) :=
  [(0, .position), (1, .immediate), (2, .relative)]

/-- The number of operands of an opcode (R85, column arity). -/
def Opcode.arity : Opcode → Nat
  | .add => 3
  | .mul => 3
  | .input => 1
  | .output => 1
  | .jt => 2
  | .jf => 2
  | .lt => 3
  | .eq => 3
  | .arb => 1
  | .halt => 0

/-- The number of cells of an instruction, 1 + arity (R80). -/
def Instr.width (i : Instr) : Nat := 1 + i.opcode.arity

/-- `digit(w, k)`, decimal digit k of w, digit 0 the least significant (R7). -/
def digit (w k : Nat) : Nat := w / 10 ^ k % 10

/-- The mode of operand k (1, 2 or 3) of word w, if its digit is a mode (R81, R86, R90). -/
def modeField (w k : Nat) : Option Mode := modeTable.lookup (digit w (k + 1))

/-- Class 4 of R92: the write operand's mode must not be Immediate (R114). -/
def checkWriteTarget (i : Instr) : Except DecodeError Instr :=
  if i.wellFormed then .ok i else .error .invalidWriteTarget

/-- Format F3, `CBAoo` (R84): two read operands and a write operand; no digit above position 4 (R91). -/
def decodeF3 (w : Nat) (mk : Mode → Mode → Mode → Instr) : Except DecodeError Instr :=
  match modeField w 1, modeField w 2, modeField w 3 with
  | some a, some b, some c => if w / 100000 = 0 then checkWriteTarget (mk a b c) else .error .invalidMode
  | _, _, _ => .error .invalidMode

/-- Format F2, `BAoo` (R84): two read operands; no digit above position 3 (R91). -/
def decodeF2 (w : Nat) (mk : Mode → Mode → Instr) : Except DecodeError Instr :=
  match modeField w 1, modeField w 2 with
  | some a, some b => if w / 10000 = 0 then .ok (mk a b) else .error .invalidMode
  | _, _ => .error .invalidMode

/-- Formats F1R and F1W, `Aoo` (R84): one operand; no digit above position 2 (R91). The write-target check
passes every instruction without a write operand. -/
def decodeF1 (w : Nat) (mk : Mode → Instr) : Except DecodeError Instr :=
  match modeField w 1 with
  | some a => if w / 1000 = 0 then checkWriteTarget (mk a) else .error .invalidMode
  | none => .error .invalidMode

/-- Format F0, `oo` (R84): no digit above position 1 (R91). -/
def decodeF0 (w : Nat) (i : Instr) : Except DecodeError Instr :=
  if w / 100 = 0 then .ok i else .error .invalidMode

/-- Decoding of a non-negative word, in the order of R92: opcode, mode digits, surplus digits, write target. -/
def decodeNat (w : Nat) : Except DecodeError Instr :=
  match opcodeTable.lookup (w % 100) with
  | none => .error .invalidOpcode
  | some .add => decodeF3 w .add
  | some .mul => decodeF3 w .mul
  | some .input => decodeF1 w .input
  | some .output => decodeF1 w .output
  | some .jt => decodeF2 w .jt
  | some .jf => decodeF2 w .jf
  | some .lt => decodeF3 w .lt
  | some .eq => decodeF3 w .eq
  | some .arb => decodeF1 w .arb
  | some .halt => decodeF0 w .halt

/-- Decoding (R112): a function of the one instruction word and of nothing else (R94). A negative word is
InvalidOpcode (R88). -/
def decode (w : Word) : Except DecodeError Instr :=
  if w.toInt < 0 then .error .invalidOpcode else decodeNat w.toInt.toNat

/-! ## The encoder -/

/-- The number of an opcode, read from the same table (R85). -/
def Opcode.number (o : Opcode) : Nat :=
  match opcodeTable.find? (fun r => r.2 = o) with
  | some r => r.1
  | none => 0

/-- The digit of a mode, read from the same table (R86). -/
def Mode.digit (m : Mode) : Nat :=
  match modeTable.find? (fun r => r.2 = m) with
  | some r => r.1
  | none => 0

/-- The mode digits of an operand list, operand 1 at the lowest place: M1 + 10*M2 + 100*M3. -/
def modeDigits : List Mode → Nat
  | [] => 0
  | m :: ms => m.digit + 10 * modeDigits ms

/-- OP + 100*M1 + 1000*M2 + 10000*M3 (R81, R96), as a number. -/
def encodeNat (i : Instr) : Nat := i.opcode.number + 100 * modeDigits i.modes

/-- The instruction word of an instruction (R81, R96). -/
def encode (i : Instr) : Word := BitVec.ofNat Config.xlen (encodeNat i)

/-! ## The host's table words (log entry 2)

The spec has no bits and no bytes in an instruction (R7, R57). Its units are whole cells: cell k of an
instruction is bits 64k+63 .. 64k of the table word. -/

/-- Cell k of an instruction whose bits are w, bits at and above nbits being 0. -/
def tableCell (nbits w k : Nat) : Word := BitVec.ofNat Config.xlen (w % 2 ^ nbits / 2 ^ (Config.xlen * k))

/-- The instruction the decoder reads from a table word: its first cell is the instruction word (R80, R94). -/
def decodeTableWord (nbits w : Nat) : Option Instr := (decode (tableCell nbits w 0)).toOption

/-! ## The assembly notation of the spec (R96, R97): labels and text are not modelled, their lines are -/

/-- The cells of one instruction line: its word, then its operand cells in operand order (R80, R96). -/
def assembleInstr (o : Opcode) (operands : List AsmOperand) : List Int :=
  (o.number + 100 * modeDigits (operands.map AsmOperand.mode) : Nat) :: operands.map AsmOperand.raw

/-- The cells a line emits (R96, R97). A destination written `#n` is accepted (R96). -/
def AsmLine.cells : AsmLine → List Int
  | .add s1 s2 d => assembleInstr .add [s1, s2, d]
  | .mul s1 s2 d => assembleInstr .mul [s1, s2, d]
  | .input d => assembleInstr .input [d]
  | .output s => assembleInstr .output [s]
  | .jt s t => assembleInstr .jt [s, t]
  | .jf s t => assembleInstr .jf [s, t]
  | .lt s1 s2 d => assembleInstr .lt [s1, s2, d]
  | .eq s1 s2 d => assembleInstr .eq [s1, s2, d]
  | .arb s => assembleInstr .arb [s]
  | .halt => assembleInstr .halt []
  | .data values => values

/-- The image of a program in the assembly notation (R98: element i is the content of MEM[i]). -/
def assemble (lines : List AsmLine) : List Int := lines.flatMap AsmLine.cells

end Sys2Proof
end

