-- ==== Sys2Proof/Machine/State.lean ====
section
/-! DEFINITION. State: the eleven items of spec/10_state.md R20 "and nothing else", as plain data; the
reasons the model itself stops; the state after reset. -/

namespace Sys2Proof.Machine

/-- STATE, the run-state register (R26, R200). -/
inductive RunState where
  | running
  | awaitingInput
  | halted
  | faulted
  deriving DecidableEq, Repr

/-- MODE, the run-mode register (R27, R204, R205). -/
inductive RunMode where
  | oneShot
  | cooperative
  deriving DecidableEq, Repr

/-- The seven fault kinds (R240). FAULT_KIND = None is `none` of the register's type. -/
inductive FaultKind where
  /-- The word is negative or its opcode unknown (R241). -/
  | invalidOpcode
  /-- The write operand is Immediate (R242). -/
  | invalidWriteTarget
  /-- An effective address is below 0 (R243). -/
  | negativeAddress
  /-- IN with INQ empty in One-shot mode (R244). -/
  | inputExhausted
  /-- IP outside 0 to MLEN - 1 at fetch (R245). -/
  | ipOutOfRange
  /-- A mode digit above 2, or a surplus digit (R247). -/
  | invalidMode
  /-- An exact result, address or new IP outside INT_MIN to INT_MAX (R246). -/
  | arithmeticOverflow
  deriving DecidableEq, Repr

/-- MEM (R31): (address, cell) pairs, addresses strictly rising, no cell 0 listed; an unlisted address holds
0 (R38 (c), R41, R53). The unit is the cell, the smallest thing the spec addresses (R50; log entry 2). -/
abbrev Memory := List (Nat × Word)

/-- The complete state of one instance (R20). -/
structure State where
  /-- MEM (R31). -/
  mem : Memory
  /-- MLEN, the number of backed cells (R32). -/
  mlen : Nat
  /-- IP (R22). -/
  ip : Word
  /-- RB (R24). -/
  rb : Word
  /-- STATE (R26). -/
  runState : RunState
  /-- MODE (R27). -/
  mode : RunMode
  /-- FAULT_KIND (R28). -/
  faultKind : Option FaultKind
  /-- FAULT_IP (R29). -/
  faultIp : Word
  /-- FAULT_INSN (R30). -/
  faultInsn : Word
  /-- INQ, front first (R33). -/
  inq : List Word
  /-- OUT, oldest first (R34). -/
  out : List Word
  deriving DecidableEq, Repr

/-- Why a step answers no next state: it is not enabled, because STATE is not Running (R110; log entry 6,
DEDUCED, safe). A fault of the spec is no such stop: it is a next state with STATE = Faulted (R249). -/
inductive Fault where
  /-- Raised by `step` when STATE = AwaitingInput: only the host's RESUME or START moves the instance (R213, R261). Safe. -/
  | awaitingInput
  /-- Raised by `step` when STATE = Halted: "the CORE takes no further step" (R191). Safe. -/
  | halted
  /-- Raised by `step` when STATE = Faulted: Faulted is terminal (R251). Safe. -/
  | faulted
  deriving DecidableEq, Repr

/-- What the model refuses by name: host transactions the spec refuses or gives no move. -/
inductive Refusal where
  /-- Raised by `exec` for an instruction without a meaning; no arm uses it. Safe. -/
  | notModelled (mnemonic : String)
  /-- Raised by START and ENQUEUE for a value that does not fit, or an image longer than ADDR_MAX + 1
  (R70, R212, R281). Safe: the spec refuses it. -/
  | illegalArgument
  /-- Raised by RESUME where STATE is not AwaitingInput: "the model gives it no move" (R213). Safe. -/
  | resumeNotEnabled
  /-- Raised by READ_MEMORY while STATE = Running (R215). Safe. -/
  | readMemoryNotEnabled
  /-- Raised by ENQUEUE in One-shot mode, a move the model does not give the host (R217 (e); log entry 10). Safe. -/
  | enqueueInOneShot
  /-- Raised by an event addressed to an instance that does not exist (R220). Safe. -/
  | noSuchInstance
  deriving DecidableEq, Repr

/-- The state after START([], OneShot, []) (R41, R280, R281). The reset of this machine takes arguments from the
host; the arguments of this constant are the model's choice (log entry 4: DESIGN CHOICE). -/
def State.reset : State :=
  { mem := [], mlen := 0, ip := 0, rb := 0, runState := .running, mode := .oneShot,
    faultKind := none, faultIp := 0, faultInsn := 0, inq := [], out := [] }

end Sys2Proof.Machine
end

