-- ==== Sys2Proof/Machine/Ops.lean ====
section
/-! DEFINITION. Ops: the named operations over memory and registers: the read and write primitives (R53,
R54), growth (R55), fetch (R111), commit (R120), fault entry (R249) and suspension (R151). There is no
return from a fault to write beside fault entry: "there is no trap return" (R251). -/

namespace Sys2Proof.Machine

/-! ## Memory -/

/-- MEM[a] (R53): the listed cell, or 0. -/
def Memory.read : Memory → Nat → Word
  | [], _ => 0
  | (b, x) :: rest, a => if b = a then x else Memory.read rest a

/-- A cell in front of a memory, unless it holds what an unlisted address reads as. -/
def Memory.cons (a : Nat) (v : Word) (m : Memory) : Memory := if v = 0 then m else (a, v) :: m

/-- MEM[a] <- v, every other cell unchanged (R54); the canonical form is kept. -/
def Memory.write : Memory → Nat → Word → Memory
  | [], a, v => Memory.cons a v []
  | (b, x) :: rest, a, v =>
    if b < a then (b, x) :: Memory.write rest a v
    else if b = a then Memory.cons a v rest
    else Memory.cons a v ((b, x) :: rest)

/-- The canonical form: addresses strictly rising, no cell 0 listed. -/
def Memory.wf : Memory → Bool
  | [] => true
  | (a, v) :: rest => decide (v ≠ 0) && rest.all (fun c => decide (a < c.1)) && Memory.wf rest

/-- The memory that holds the values from address a on and 0 elsewhere (R41, R68). -/
def Memory.loadFrom (a : Nat) : List Word → Memory
  | [] => []
  | v :: vs => Memory.cons a v (Memory.loadFrom (a + 1) vs)

/-- MLEN after a step that touched the addresses T: max(MLEN, 1 + max(T)) (R55). -/
def grow (mlen : Nat) (touched : List Int) : Nat := touched.foldl (fun n a => max n (a + 1).toNat) mlen

/-! ## Fetch -/

/-- Whether the fetch check of R111 passes: 0 ≤ IP < MLEN. -/
abbrev State.ipInRange (s : State) : Prop := 0 ≤ s.ip.toInt ∧ s.ip.toInt < s.mlen

/-- MEM[IP], the instruction word. Below address 0 there is no cell: 0 (never reached from a step, which tests
IP first; log entry 7). -/
def State.instrWord (s : State) : Word := if s.ip.toInt < 0 then 0 else s.mem.read s.ip.toInt.toNat

/-- Fetch (R111): IPOutOfRange outside 0 to MLEN - 1, else the word. -/
def fetchWord (s : State) : Except FaultKind Word :=
  if s.ipInRange then .ok s.instrWord else .error .ipOutOfRange

/-- The fault kind of an undecodable word (R112, R241, R242, R247). -/
def decodeFault : DecodeError → FaultKind
  | .invalidOpcode => .invalidOpcode
  | .invalidMode => .invalidMode
  | .invalidWriteTarget => .invalidWriteTarget

/-! ## The three ways a step ends (R127) -/

/-- Fault entry, `raise K` (R249): STATE <- Faulted, FAULT_KIND <- K, FAULT_IP <- IP, FAULT_INSN <- w, or 0 for
IPOutOfRange; "Nothing else changes". -/
def takeFault (k : FaultKind) (s : State) : State :=
  { s with
    runState := .faulted
    faultKind := some k
    faultIp := s.ip
    faultInsn := if k = .ipOutOfRange then 0 else s.instrWord }

/-- Suspension (R151): STATE <- AwaitingInput and nothing else. -/
def suspend (s : State) : State := { s with runState := .awaitingInput }

/-- Commit of the part every instruction but HALT has (R120): the new IP and the growth of MLEN for the touched
addresses (R55). -/
def commit (s : State) (ip : Word) (touched : List Int) : State :=
  { s with ip := ip, mlen := grow s.mlen touched }

/-- Commit of an instruction with a write operand (R120): the same, and the one memory write. -/
def commitStore (s : State) (ip : Word) (touched : List Int) (a : Nat) (v : Word) : State :=
  { s with ip := ip, mlen := grow s.mlen touched, mem := s.mem.write a v }

/-- The outcome of an instruction: what it commits, or the fault it raises, which is a next state (R249). -/
def complete (s : State) (r : Except FaultKind State) : Host.Outcome State Fault Refusal :=
  match r with
  | .ok t => .next t
  | .error k => .next (takeFault k s)

/-- A step where none is enabled (R110; log entry 6): the CORE has no move. -/
def notEnabled (s : State) : Host.Outcome State Fault Refusal :=
  match s.runState with
  | .running => .next s
  | .awaitingInput => .fault .awaitingInput
  | .halted => .fault .halted
  | .faulted => .fault .faulted

/-! ## Placing an instruction where the next step fetches (log entry 5) -/

/-- The cells written from address a on, as far as addresses exist (R50). -/
def Memory.placeFrom (m : Memory) (a : Nat) : List Word → Memory
  | [] => m
  | v :: vs => Memory.placeFrom (if a ≤ Config.addrMax then m.write a v else m) (a + 1) vs

/-- The state in which the next step fetches the given cells: they stand at IP (at address 0 if IP is negative),
MLEN covers them, STATE is Running with no fault recorded. -/
def State.placeCells (s : State) (cells : List Word) : State :=
  let a := s.ip.toInt.toNat
  { s with
    mem := s.mem.placeFrom a cells
    mlen := max s.mlen (min (a + cells.length) (Config.addrMax + 1))
    ip := if s.ip.toInt < 0 then 0 else s.ip
    runState := .running
    faultKind := none }

end Sys2Proof.Machine
end

