-- ==== Sys2Proof/Machine/Operands.lean ====
section
/-! DEFINITION. Operands: operand-cell fetch (R115), the three addressing modes (R116 to R118), write
operands (R114, R119), resolution of all operands in order before execute (R121), the range check of computed
values (R9, R143) and the IP advance (R122).

Every operation answers the value or the fault kind it raises; the first fault ends the step (R248). -/

namespace Sys2Proof.Machine

/-- A computed value, or ArithmeticOverflow when it does not fit (R9, R143). -/
def narrow (v : Int) : Except FaultKind Word :=
  if fits v then .ok (Word.ofInt v) else .error .arithmeticOverflow

/-- The IP after an instruction of the given width (R122). -/
def nextIp (s : State) (width : Nat) : Except FaultKind Word := narrow (s.ip.toInt + width)

/-- The operand cell at an exact address a (R115). ArithmeticOverflow when a does not fit. Below 0 there is no cell:
IPOutOfRange (never reached from a step, which tests IP first; log entry 7). -/
def cellAt (s : State) (a : Int) : Except FaultKind Word :=
  if a < 0 then .error .ipOutOfRange
  else if fits a then .ok (s.mem.read a.toNat)
  else .error .arithmeticOverflow

/-- The raw value of operand k, the cell at IP + k (R115). -/
def operandCell (s : State) (k : Nat) : Except FaultKind Word := cellAt s (s.ip.toInt + k)

/-- The exact effective address of a Position or Relative operand: r, or r + RB (R116, R117). -/
def addressSum (s : State) (m : Mode) (r : Word) : Int :=
  match m with
  | .position => r.toInt
  | .immediate => r.toInt
  | .relative => r.toInt + s.rb.toInt

/-- The test of an exact effective address (R116, R117): ArithmeticOverflow if it does not fit, else NegativeAddress
if it is below 0. -/
def checkAddress (e : Int) : Except FaultKind Nat :=
  if fits e then (if e < 0 then .error .negativeAddress else .ok e.toNat)
  else .error .arithmeticOverflow

/-- The tested effective address of a Position or Relative operand (R116, R117). -/
def effectiveAddress (s : State) (m : Mode) (r : Word) : Except FaultKind Nat := checkAddress (addressSum s m r)

/-- A resolved read operand: its value, and the data addresses it touched (R55). -/
structure ReadOperand where
  value : Word
  touched : List Int
  deriving DecidableEq, Repr

/-- A read operand (R116, R117, R118): the raw value in Immediate mode, else the cell it addresses. -/
def readOperand (s : State) (m : Mode) (r : Word) : Except FaultKind ReadOperand :=
  match m with
  | .immediate => .ok { value := r, touched := [] }
  | .position => do
    let a ← effectiveAddress s .position r
    .ok { value := s.mem.read a, touched := [(a : Int)] }
  | .relative => do
    let a ← effectiveAddress s .relative r
    .ok { value := s.mem.read a, touched := [(a : Int)] }

/-- The write-target check (R114): an Immediate write operand is InvalidWriteTarget. -/
def checkWriteMode (m : Mode) : Except FaultKind Unit :=
  match m with
  | .immediate => .error .invalidWriteTarget
  | .position => .ok ()
  | .relative => .ok ()

/-- The addresses of the instruction word and of the n operand cells (R55). -/
def instrCells (s : State) (n : Nat) : List Int := (List.range (n + 1)).map (fun k : Nat => s.ip.toInt + k)

/-- The resolved operands of format F3: the two values, the destination address, all addresses touched. -/
structure OperandsF3 where
  a : Word
  b : Word
  dst : Nat
  touched : List Int
  deriving DecidableEq, Repr

/-- The resolved operands of format F2. -/
structure OperandsF2 where
  a : Word
  target : Word
  touched : List Int
  deriving DecidableEq, Repr

/-- The resolved operand of format F1R. -/
structure OperandsF1R where
  a : Word
  touched : List Int
  deriving DecidableEq, Repr

/-- The resolved operand of format F1W. -/
structure OperandsF1W where
  dst : Nat
  touched : List Int
  deriving DecidableEq, Repr

/-- Format F3 (R84): the write-target check (R114), the operand cells (R115), then the operands in order (R121);
the destination's address is computed and not read (R119). -/
def resolveF3 (s : State) (ma mb md : Mode) : Except FaultKind OperandsF3 := do
  checkWriteMode md
  let ra ← operandCell s 1
  let rb ← operandCell s 2
  let rd ← operandCell s 3
  let a ← readOperand s ma ra
  let b ← readOperand s mb rb
  let dst ← effectiveAddress s md rd
  .ok { a := a.value, b := b.value, dst := dst,
        touched := instrCells s 3 ++ a.touched ++ b.touched ++ [(dst : Int)] }

/-- Format F2 (R84): both operands are resolved whether or not the jump is taken (R121). -/
def resolveF2 (s : State) (ma mt : Mode) : Except FaultKind OperandsF2 := do
  let ra ← operandCell s 1
  let rt ← operandCell s 2
  let a ← readOperand s ma ra
  let t ← readOperand s mt rt
  .ok { a := a.value, target := t.value, touched := instrCells s 2 ++ a.touched ++ t.touched }

/-- Format F1R (R84). -/
def resolveF1R (s : State) (ma : Mode) : Except FaultKind OperandsF1R := do
  let ra ← operandCell s 1
  let a ← readOperand s ma ra
  .ok { a := a.value, touched := instrCells s 1 ++ a.touched }

/-- Format F1W (R84): the destination's faults come before the input queue is examined (R119). -/
def resolveF1W (s : State) (md : Mode) : Except FaultKind OperandsF1W := do
  checkWriteMode md
  let rd ← operandCell s 1
  let dst ← effectiveAddress s md rd
  .ok { dst := dst, touched := instrCells s 1 ++ [(dst : Int)] }

end Sys2Proof.Machine
end

