-- ==== Sys2Proof/Machine/Flags.lean ====
section
/-! DEFINITION. Flags: "The machine has no flags, no condition codes and no predicate registers" (R25).
What stands in their place is here: the 0 or 1 that LT and EQ store (R170 to R172) and the test against zero
that JT and JF make (R160, R161). -/

namespace Sys2Proof.Machine

/-- The value of a comparison: "exactly the integers 1 and 0" (R172). -/
def truthValue (b : Bool) : Word := if b then 1 else 0

/-- The signed comparison of LT; no difference is formed (R170). -/
def isLess (a b : Word) : Bool := decide (a.toInt < b.toInt)

/-- The equality of whole values of EQ (R171). -/
def isEqual (a b : Word) : Bool := decide (a.toInt = b.toInt)

/-- "any non-zero a is true, negative values included" (R160). -/
def isNonZero (a : Word) : Bool := decide (a.toInt ≠ 0)

end Sys2Proof.Machine
end

