-- ==== Sys2Proof/Machine/Arithmetic.lean ====
section
/-! DEFINITION. Arithmetic: ADD and MUL (spec/41_arithmetic.md, R140 to R143). -/

namespace Sys2Proof.Machine

/-- ADD (R140): the exact sum, range-checked, stored at the destination; IP + 4. -/
def execAdd (a b dst : Mode) (s : State) : Host.Outcome State Fault Refusal :=
  complete s do
    let o ← resolveF3 s a b dst
    let v ← narrow (o.a.toInt + o.b.toInt)
    let ip ← nextIp s 4
    .ok (commitStore s ip o.touched o.dst v)

/-- MUL (R141): the exact product, range-checked, stored at the destination; IP + 4. -/
def execMul (a b dst : Mode) (s : State) : Host.Outcome State Fault Refusal :=
  complete s do
    let o ← resolveF3 s a b dst
    let v ← narrow (o.a.toInt * o.b.toInt)
    let ip ← nextIp s 4
    .ok (commitStore s ip o.touched o.dst v)

end Sys2Proof.Machine
end

