-- ==== Sys2Proof/Machine/Compare.lean ====
section
/-! DEFINITION. Compare: LT and EQ (spec/44_compare.md, R170 to R172). -/

namespace Sys2Proof.Machine

/-- LT (R170): 1 if a < b, else 0, stored at the destination; IP + 4. -/
def execLt (a b dst : Mode) (s : State) : Host.Outcome State Fault Refusal :=
  complete s do
    let o ← resolveF3 s a b dst
    let ip ← nextIp s 4
    .ok (commitStore s ip o.touched o.dst (truthValue (isLess o.a o.b)))

/-- EQ (R171): 1 if a = b, else 0, stored at the destination; IP + 4. -/
def execEq (a b dst : Mode) (s : State) : Host.Outcome State Fault Refusal :=
  complete s do
    let o ← resolveF3 s a b dst
    let ip ← nextIp s 4
    .ok (commitStore s ip o.touched o.dst (truthValue (isEqual o.a o.b)))

end Sys2Proof.Machine
end

