-- ==== Sys2Proof/Machine/Halt.lean ====
section
/-! DEFINITION. Halt: HALT (spec/46_halt.md, R190, R191). -/

namespace Sys2Proof.Machine

/-- HALT (R190): STATE <- Halted; IP, RB, MEM, MLEN, INQ, OUT unchanged. -/
def execHalt (s : State) : Host.Outcome State Fault Refusal :=
  complete s (.ok { s with runState := .halted })

end Sys2Proof.Machine
end

