-- ==== Sys2Proof/Machine/InputOutput.lean ====
section
/-! DEFINITION. InputOutput: IN and OUT (spec/42_io.md, R150 to R153). -/

namespace Sys2Proof.Machine

/-- IN with INQ empty: InputExhausted in One-shot mode (R244), suspension in Cooperative mode (R151). -/
def starved (s : State) : Except FaultKind State :=
  match s.mode with
  | .oneShot => .error .inputExhausted
  | .cooperative => .ok (suspend s)

/-- The execute phase of IN (R150), every check but the queue's passed: one value, the front one, is consumed and
stored. -/
def takeInput (s : State) (ip : Word) (o : OperandsF1W) : Except FaultKind State :=
  match s.inq with
  | [] => starved s
  | x :: rest => .ok { commitStore s ip o.touched o.dst x with inq := rest }

/-- IN (R150): the front of INQ is stored at the destination; IP + 2. The queue is examined last (R119, R151). -/
def execInput (dst : Mode) (s : State) : Host.Outcome State Fault Refusal :=
  complete s do
    let o ← resolveF1W s dst
    let ip ← nextIp s 2
    takeInput s ip o

/-- OUT (R152): OUT gains the value at the back; IP + 2. -/
def execOutput (a : Mode) (s : State) : Host.Outcome State Fault Refusal :=
  complete s do
    let o ← resolveF1R s a
    let ip ← nextIp s 2
    .ok { commit s ip o.touched with out := s.out ++ [o.a] }

end Sys2Proof.Machine
end

