-- ==== Sys2Proof/Machine/Jumps.lean ====
section
/-! DEFINITION. Jumps: JT and JF (spec/43_jumps.md, R160 to R163). -/

namespace Sys2Proof.Machine

/-- The IP after a jump of width 3: the target, unchecked (R163), or the next instruction (R122). -/
def jumpIp (s : State) (taken : Bool) (target : Word) : Except FaultKind Word :=
  if taken then .ok target else nextIp s 3

/-- JT (R160): IP = target if a is not 0, else IP + 3. -/
def execJt (a target : Mode) (s : State) : Host.Outcome State Fault Refusal :=
  complete s do
    let o ← resolveF2 s a target
    let ip ← jumpIp s (isNonZero o.a) o.target
    .ok (commit s ip o.touched)

/-- JF (R161): IP = target if a is 0, else IP + 3. -/
def execJf (a target : Mode) (s : State) : Host.Outcome State Fault Refusal :=
  complete s do
    let o ← resolveF2 s a target
    let ip ← jumpIp s (!isNonZero o.a) o.target
    .ok (commit s ip o.touched)

end Sys2Proof.Machine
end

