-- ==== Sys2Proof/Machine/RelativeBase.lean ====
section
/-! DEFINITION. RelativeBase: ARB (spec/45_relbase.md, R180, R181). -/

namespace Sys2Proof.Machine

/-- ARB (R180): RB <- RB + a, exact and range-checked; IP + 2. The operand is resolved with the old RB (R117). -/
def execArb (a : Mode) (s : State) : Host.Outcome State Fault Refusal :=
  complete s do
    let o ← resolveF1R s a
    let rb ← narrow (s.rb.toInt + o.a.toInt)
    let ip ← nextIp s 2
    .ok { commit s ip o.touched with rb := rb }

end Sys2Proof.Machine
end

