-- ==== Sys2Proof/Machine/Step.lean ====
section
/-! DEFINITION. Step: the one move of the CORE (R110), enabled exactly when STATE = Running: fetch (R111),
decode (R112), and the instruction's meaning; and where the host's table words are placed. -/

namespace Sys2Proof.Machine

/-- One step (R110). A fetch or decode fault is a next state (R249); where STATE is not Running no step is
enabled (log entry 6). -/
def step (s : State) : Host.Outcome State Fault Refusal :=
  match s.runState with
  | .running =>
    match fetchWord s with
    | .error k => .next (takeFault k s)
    | .ok w =>
      match decode w with
      | .error e => .next (takeFault (decodeFault e) s)
      | .ok i => exec i s
  | .awaitingInput => notEnabled s
  | .halted => notEnabled s
  | .faulted => notEnabled s

/-- The instruction with the table bits w stored where the next step fetches, as four cells, the longest
instruction (R80; log entries 2 and 5). -/
def State.withFetchWord (s : State) (nbits w : Nat) : State :=
  s.placeCells [tableCell nbits w 0, tableCell nbits w 1, tableCell nbits w 2, tableCell nbits w 3]

end Sys2Proof.Machine
end

