-- ==== Sys2Proof/Machine/RunControl.lean ====
section
/-! DEFINITION. RunControl: the host's five transactions (R210 to R215), the code numbers a host reads (R26 to
R28, R240), and an event, which is a step or a transaction. A transaction happens between two steps (R210), so
it is a function of the state beside `step` (log entry 11). -/

namespace Sys2Proof.Machine

/-! ## Code numbers -/

/-- STATE as a number (R26; D16). -/
def RunState.code : RunState → Nat
  | .running => 0
  | .awaitingInput => 1
  | .halted => 2
  | .faulted => 3

/-- MODE as a number (R27; D16). -/
def RunMode.code : RunMode → Nat
  | .oneShot => 0
  | .cooperative => 1

/-- The code of a fault kind (R240; D16). -/
def FaultKind.code : FaultKind → Nat
  | .invalidOpcode => 1
  | .invalidWriteTarget => 2
  | .negativeAddress => 3
  | .inputExhausted => 4
  | .ipOutOfRange => 5
  | .invalidMode => 6
  | .arithmeticOverflow => 7

/-- FAULT_KIND as a number; None is 0 (R28, R240). -/
def faultKindCode (k : Option FaultKind) : Nat :=
  match k with
  | none => 0
  | some k => k.code

/-- The failing opcode of the fault report: FAULT_INSN mod 100 when FAULT_INSN is not negative (R30). -/
def State.failingOpcode (s : State) : Option Nat :=
  if s.faultInsn.toInt < 0 then none else some (s.faultInsn.toInt.toNat % 100)

/-! ## The transactions -/

/-- A value supplied by the host, which must satisfy `fits` (R70, R212, R281). -/
def hostValue (v : Int) : Option Word := if fits v then some (Word.ofInt v) else none

/-- A sequence of values supplied by the host: refused if one does not fit. -/
def hostValues : List Int → Option (List Word)
  | [] => some []
  | v :: vs =>
    match hostValue v, hostValues vs with
    | some x, some xs => some (x :: xs)
    | _, _ => none

/-- The state after START (R41, R280): nothing of an earlier computation survives (R211, R282). -/
def startState (image : List Word) (mode : RunMode) (q0 : List Word) : State :=
  { mem := Memory.loadFrom 0 image, mlen := image.length, ip := 0, rb := 0, runState := .running, mode := mode,
    faultKind := none, faultIp := 0, faultInsn := 0, inq := q0, out := [] }

/-- START (R211, R280, R281): enabled in every state; "A START with an illegal argument is refused". -/
def start (image : List Int) (mode : RunMode) (q0 : List Int) : Host.Outcome State Fault Refusal :=
  match hostValues image, hostValues q0 with
  | some im, some q =>
    if im.length ≤ Config.addrMax + 1 then .next (startState im mode q) else .refused .illegalArgument
  | _, _ => .refused .illegalArgument

/-- ENQUEUE (R212): INQ <- INQ ++ [v] and nothing else. A One-shot host makes no such move (R217 (e); log entry
10). -/
def enqueue (v : Int) (s : State) : Host.Outcome State Fault Refusal :=
  match s.mode with
  | .oneShot => .refused .enqueueInOneShot
  | .cooperative =>
    match hostValue v with
    | some x => .next { s with inq := s.inq ++ [x] }
    | none => .refused .illegalArgument

/-- RESUME (R213): enabled only in AwaitingInput; STATE <- Running and nothing else. -/
def resume (s : State) : Host.Outcome State Fault Refusal :=
  match s.runState with
  | .awaitingInput => .next { s with runState := .running }
  | .running => .refused .resumeNotEnabled
  | .halted => .refused .resumeNotEnabled
  | .faulted => .refused .resumeNotEnabled

/-- What OBSERVE returns (R214). -/
structure Observation where
  runState : RunState
  mode : RunMode
  faultKind : Option FaultKind
  faultIp : Word
  faultInsn : Word
  out : List Word
  inqEmpty : Bool
  deriving DecidableEq, Repr

/-- OBSERVE (R214): enabled in every state; it consumes nothing. -/
def observe (s : State) : Observation :=
  { runState := s.runState, mode := s.mode, faultKind := s.faultKind, faultIp := s.faultIp,
    faultInsn := s.faultInsn, out := s.out, inqEmpty := s.inq.isEmpty }

/-- What READ_MEMORY returns: IP, RB, MLEN and MEM[0] to MEM[MLEN - 1] (R215). -/
structure MemoryReport where
  ip : Word
  rb : Word
  mlen : Nat
  cells : List Word
  deriving DecidableEq, Repr

/-- READ_MEMORY (R215): nothing while STATE = Running. -/
def readMemory (s : State) : Option MemoryReport :=
  if s.runState = .running then none
  else some { ip := s.ip, rb := s.rb, mlen := s.mlen, cells := (List.range s.mlen).map s.mem.read }

/-- The host's transactions (R210). -/
inductive Transaction where
  | start (image : List Int) (mode : RunMode) (q0 : List Int)
  | enqueue (v : Int)
  | resume
  | observe
  | readMemory
  deriving DecidableEq, Repr

/-- The effect of a transaction on the instance (R210). -/
def transact (t : Transaction) (s : State) : Host.Outcome State Fault Refusal :=
  match t with
  | .start image mode q0 => start image mode q0
  | .enqueue v => enqueue v s
  | .resume => resume s
  | .observe => .next s
  | .readMemory => if s.runState = .running then .refused .readMemoryNotEnabled else .next s

/-- What can happen to an instance: a step of the CORE or a transaction of the host (R210). -/
inductive Event where
  | step
  | host (t : Transaction)
  deriving DecidableEq, Repr

/-- The effect of an event. -/
def act (e : Event) (s : State) : Host.Outcome State Fault Refusal :=
  match e with
  | .step => step s
  | .host t => transact t s

/-- A run call (R206), with at most `fuel` steps: the state in which STATE first is not Running, if it is reached. -/
def runCall : Nat → State → Option State
  | 0, s => if s.runState = .running then none else some s
  | fuel + 1, s =>
    if s.runState = .running then
      match step s with
      | .next t => runCall fuel t
      | .fault _ => none
      | .refused _ => none
    else some s

end Sys2Proof.Machine
end

