-- ==== Sys2Proof/Machine/Instances.lean ====
section
/-! DEFINITION. Instances: several instances are independent machines that share nothing (R69, R220, R260). A
value passes from one to another only when the host reads it from OUT and enqueues it (R220). What the host
connects to what is the orchestrator's policy, out of scope (R3). -/

namespace Sys2Proof.Machine

/-- An event at instance k of several: that instance alone changes (R220). -/
def actOn (k : Nat) (e : Event) (all : List State) : Host.Outcome (List State) Fault Refusal :=
  match all[k]? with
  | none => .refused .noSuchInstance
  | some s =>
    match act e s with
    | .next t => .next (all.set k t)
    | .fault f => .fault f
    | .refused r => .refused r

/-- The host forwards entry n of instance x's OUT to instance y by ENQUEUE (R220). -/
def forward (x n y : Nat) (all : List State) : Host.Outcome (List State) Fault Refusal :=
  match all[x]? with
  | none => .refused .noSuchInstance
  | some s =>
    match s.out[n]? with
    | none => .refused .illegalArgument
    | some v => actOn y (.host (.enqueue v.toInt)) all

end Sys2Proof.Machine
end

