-- ==== Sys2Proof/Safety.lean ====
section
/-! DEFINITION. Safety: the invariants of R38, the end of a computation (R218), the states a computation can
reach, and the terms in which claims speak of runs. -/

namespace Sys2Proof.Machine

/-- The invariants of R38 that hold of one state. Range (a) holds by the type of every value. -/
structure State.Inv (s : State) : Prop where
  /-- The memory is in canonical form. -/
  memWf : s.mem.wf = true
  /-- Every listed address is below MLEN: cells at or above MLEN hold 0 (R38 (c)). -/
  listedBelow : ∀ c ∈ s.mem, c.1 < s.mlen
  /-- MLEN ≤ ADDR_MAX + 1 (R38 (b)). -/
  mlenBound : s.mlen ≤ Config.addrMax + 1
  /-- FAULT_KIND is None exactly when STATE is not Faulted (R38 (e)). -/
  faultRecorded : s.faultKind = none ↔ s.runState ≠ .faulted
  /-- While Faulted, FAULT_IP equals IP (R29). -/
  faultAtIp : s.runState = .faulted → s.faultIp = s.ip

/-- A computation has ended exactly when STATE = Halted or STATE = Faulted (R218). -/
def State.ended (s : State) : Bool := decide (s.runState = .halted) || decide (s.runState = .faulted)

/-- It ended successfully exactly when STATE = Halted (R218). -/
def State.succeeded (s : State) : Bool := decide (s.runState = .halted)

/-- A safe state: no fault has been raised (R254: "treat any fault as program failure"). -/
def State.safe (s : State) : Bool := decide (s.runState ≠ .faulted)

/-- The states an instance can be in: what a START gives, and what any event makes of such a state. There is no
state before the first START (R282). -/
inductive Reachable : State → Prop where
  | start (image : List Int) (mode : RunMode) (q0 : List Int) (s : State) :
      start image mode q0 = .next s → Reachable s
  | act (e : Event) (s t : State) : Reachable s → act e s = .next t → Reachable t

/-- What drives a Cooperative instance between two STARTs: steps, ENQUEUEs and RESUMEs, in any order (R205). -/
inductive Drive where
  | step
  | enqueue (v : Word)
  | resume
  deriving DecidableEq, Repr

/-- The event a drive is. -/
def Drive.event : Drive → Event
  | .step => .step
  | .enqueue v => .host (.enqueue v.toInt)
  | .resume => .host .resume

/-- The state after a sequence of drives, if each of them is enabled. -/
def drive : List Drive → State → Option State
  | [], s => some s
  | d :: ds, s =>
    match act d.event s with
    | .next t => drive ds t
    | .fault _ => none
    | .refused _ => none

/-- The values a sequence of drives enqueues, in order. -/
def enqueued : List Drive → List Word
  | [] => []
  | .enqueue v :: ds => v :: enqueued ds
  | .step :: ds => enqueued ds
  | .resume :: ds => enqueued ds

/-- The state with a suspension set aside: AwaitingInput counts as Running, all else as it is (R207). -/
def State.awake (s : State) : State :=
  { s with runState := if s.runState = .awaitingInput then .running else s.runState }

/-! ## The terms of the instruction statements, in the spec's own words and apart from the resolving functions -/

/-- The raw value of operand k: MEM[IP + k] (R115). -/
def operandRaw (s : State) (k : Nat) : Word := s.mem.read (s.ip.toInt + k).toNat

/-- The exact effective address of operand k: r, or r + RB in Relative mode (R116, R117). -/
def operandAddress (s : State) (m : Mode) (k : Nat) : Int :=
  if m = .relative then (operandRaw s k).toInt + s.rb.toInt else (operandRaw s k).toInt

/-- The value of read operand k: the raw value in Immediate mode, else the cell addressed (R116 to R118). -/
def operandValue (s : State) (m : Mode) (k : Nat) : Word :=
  if m = .immediate then operandRaw s k else s.mem.read (operandAddress s m k).toNat

/-- The data address operand k touches, none in Immediate mode (R55, R118). -/
def operandTouched (s : State) (m : Mode) (k : Nat) : List Int :=
  if m = .immediate then [] else [operandAddress s m k]

/-- The faults of fetching n operand cells, in order (R115). -/
def cellFaults (s : State) (n : Nat) : List (Bool × FaultKind) :=
  (List.range n).map (fun k : Nat => (decide (¬ fits (s.ip.toInt + (k + 1 : Nat))), .arithmeticOverflow))

/-- The faults of resolving operand k, in order (R116, R117, R248). -/
def operandFaults (s : State) (m : Mode) (k : Nat) : List (Bool × FaultKind) :=
  [(decide (m ≠ .immediate ∧ ¬ fits (operandAddress s m k)), .arithmeticOverflow),
   (decide (m ≠ .immediate ∧ operandAddress s m k < 0), .negativeAddress)]

/-- The fault of a write operand's mode (R114). -/
def writeFaults (m : Mode) : List (Bool × FaultKind) := [(decide (m = .immediate), .invalidWriteTarget)]

/-- The fault of a computed value that must fit (R9, R143). -/
def rangeFaults (v : Int) : List (Bool × FaultKind) := [(decide (¬ fits v), .arithmeticOverflow)]

/-- Of several fault conditions, the one that is raised: the first that holds (R248). -/
def firstFault : List (Bool × FaultKind) → Option FaultKind
  | [] => none
  | (holds, k) :: rest => if holds then some k else firstFault rest

end Sys2Proof.Machine
end

