-- ==== Sys2Proof/Certificates/Slice0/Obligations.lean ====
section
/-! DEFINITION. Obligations: statements about the machine for the provers. Each docstring names the rule of
spec/ it formalises, or says which choice of the model or which decision of the spec it rests on. -/

open Sys2Proof Sys2Proof.Machine

/-! ## Encoding -/

/-- Words written out digit by digit from R81, R85 and R86, one at least for each instruction. The numbers 5, 6, 7,
9 and mode digit 2 are PRESUMED (log entry 8). -/
def Obligations.SpecWordsDecode : Prop :=
  decode (1002 : Word) = .ok (.mul .position .immediate .position) ∧
  decode (1 : Word) = .ok (.add .position .position .position) ∧
  decode (21201 : Word) = .ok (.add .relative .immediate .relative) ∧
  decode (203 : Word) = .ok (.input .relative) ∧
  decode (104 : Word) = .ok (.output .immediate) ∧
  decode (2105 : Word) = .ok (.jt .immediate .relative) ∧
  decode (1006 : Word) = .ok (.jf .position .immediate) ∧
  decode (1207 : Word) = .ok (.lt .relative .immediate .position) ∧
  decode (108 : Word) = .ok (.eq .immediate .position .position) ∧
  decode (209 : Word) = .ok (.arb .relative) ∧
  decode (99 : Word) = .ok .halt

/-- Decoding and encoding agree in both directions over all 2^64 words: a word decodes to an instruction exactly
when the instruction is well-formed and encodes to that word (30_encoding.md sections 1 to 3). -/
def Obligations.DecodeIffEncode : Prop :=
  ∀ (w : Word) (i : Instr), decode w = .ok i ↔ i.wellFormed = true ∧ encode i = w

/-- The complete classification of words (30_encoding.md section 3), with the opcode map written out. That
negative words, mode digits above 2 and surplus digits are rejected, and how, are the spec's own decisions D6 to
D8. The write operand is operand 3 of ADD, MUL, LT, EQ and operand 1 of IN. -/
def Obligations.EveryWordIsClassified : Prop :=
  ∀ w : Word,
    (w.toInt < 0 → decode w = .error .invalidOpcode) ∧
    ∀ n : Nat, w.toInt = n →
      (n % 100 ∉ [1, 2, 3, 4, 5, 6, 7, 8, 9, 99] → decode w = .error .invalidOpcode) ∧
      ∀ op : Opcode,
        (n % 100, op) ∈ [(1, Opcode.add), (2, .mul), (3, .input), (4, .output), (5, .jt), (6, .jf), (7, .lt),
          (8, .eq), (9, .arb), (99, .halt)] →
        let badMode := (∃ k, 1 ≤ k ∧ k ≤ op.arity ∧ 2 < digit n (k + 1)) ∨ n / 10 ^ (op.arity + 2) ≠ 0
        let immediateWrite := (op ∈ [Opcode.add, .mul, .lt, .eq] ∧ digit n 4 = 1) ∨ (op = .input ∧ digit n 2 = 1)
        (badMode → decode w = .error .invalidMode) ∧
        (¬ badMode → immediateWrite → decode w = .error .invalidWriteTarget) ∧
        (¬ badMode → ¬ immediateWrite → ∃ i, decode w = .ok i ∧ i.opcode = op ∧
          i.modes.map Mode.digit = (List.range op.arity).map (fun k => digit n (k + 2)))

/-- "The legal words are exactly 99 in number: 18 each for ADD, MUL, LT, EQ; 9 each for JT, JF; 3 each for OUT,
ARB; 2 for IN; 1 for HALT" (30_encoding.md section 3, derived there). -/
def Obligations.LegalWordsNumberNinetyNine : Prop :=
  ∃ l : List Word, l.Nodup ∧ l.length = 99 ∧ (∀ w, w ∈ l ↔ ∃ i, decode w = .ok i) ∧
    ∀ op : Opcode, (l.filter (fun w => decide ((decode w).toOption.map Instr.opcode = some op))).length =
      match op with
      | .add => 18 | .mul => 18 | .lt => 18 | .eq => 18
      | .jt => 9 | .jf => 9
      | .output => 3 | .arb => 3
      | .input => 2
      | .halt => 1

/-! ## The step -/

/-- A step answers a next state exactly while STATE = Running: total there, stopped elsewhere
(40_step_and_operands.md section 1). That a step which is not enabled is a named stop is log entry 6. -/
def Obligations.StepAnswersIffRunning : Prop :=
  ∀ s : State, (∃ t, step s = .next t) ↔ s.runState = .running

/-- A step runs the decoded instruction: IP in range and MEM[IP] a legal word, step is exec of it. Nothing is
added around exec; moving IP is the instruction's own commit. -/
def Obligations.StepRunsTheDecodedInstruction : Prop :=
  ∀ (s : State) (i : Instr), s.runState = .running → 0 ≤ s.ip.toInt → s.ip.toInt < s.mlen →
    decode (s.mem.read s.ip.toInt.toNat) = .ok i → step s = exec i s

/-- The fetch check: IP outside 0 to MLEN - 1 raises IPOutOfRange with FAULT_INSN 0 and changes nothing else. The
range is the spec's decision D5. -/
def Obligations.FetchOutsideMemoryFaults : Prop :=
  ∀ s : State, s.runState = .running → (s.ip.toInt < 0 ∨ (s.mlen : Int) ≤ s.ip.toInt) →
    step s = .next { s with runState := .faulted, faultKind := some .ipOutOfRange, faultIp := s.ip,
                            faultInsn := 0 }

/-- An illegal word raises the kind its class names, records the word, and changes nothing else. The kind
InvalidMode and the record's form are the spec's decisions D7, D8, D17. -/
def Obligations.IllegalWordFaults : Prop :=
  ∀ (s : State) (e : DecodeError), s.runState = .running → 0 ≤ s.ip.toInt → s.ip.toInt < s.mlen →
    decode (s.mem.read s.ip.toInt.toNat) = .error e →
    step s = .next { s with
      runState := .faulted
      faultKind := some (match e with
        | .invalidOpcode => .invalidOpcode
        | .invalidMode => .invalidMode
        | .invalidWriteTarget => .invalidWriteTarget)
      faultIp := s.ip
      faultInsn := s.mem.read s.ip.toInt.toNat }

/-- R89: a non-negative word whose value mod 100 is no known opcode raises InvalidOpcode, whatever its mode digits. -/
def Obligations.UnknownOpcodeFaults : Prop :=
  ∀ s : State, s.runState = .running → 0 ≤ s.ip.toInt → s.ip.toInt < s.mlen →
    0 ≤ (s.mem.read s.ip.toInt.toNat).toInt →
    (s.mem.read s.ip.toInt.toNat).toInt % 100 ∉ ([1, 2, 3, 4, 5, 6, 7, 8, 9, 99] : List Int) →
    ∃ t, step s = .next t ∧ t.runState = .faulted ∧ t.faultKind = some .invalidOpcode

/-- Fault entry and precision: whatever fault a step raises, STATE, FAULT_KIND, FAULT_IP and FAULT_INSN are written
as stated and nothing else changes (60_exceptions.md section 3; D11, D17). -/
def Obligations.FaultingStepWritesOnlyTheRecord : Prop :=
  ∀ s t : State, step s = .next t → t.runState = .faulted →
    ∃ k, t = { s with
      runState := .faulted
      faultKind := some k
      faultIp := s.ip
      faultInsn := if k = .ipOutOfRange then 0 else s.mem.read s.ip.toInt.toNat } ∧
    (k = .ipOutOfRange ↔ (s.ip.toInt < 0 ∨ (s.mlen : Int) ≤ s.ip.toInt))

/-- R201, the complete transition table of STATE over every event, host START, ENQUEUE, RESUME and observations
included. A step ends in Running only by committing an instruction other than HALT and other than an IN with INQ
empty, in Halted only by HALT, in AwaitingInput only by an IN with INQ empty in Cooperative mode, and in Faulted
with a fault recorded and never by a HALT that was fetched. -/
def Obligations.StateTransitionTable : Prop :=
  ∀ (e : Event) (s t : State), act e s = .next t →
    match e with
    | .host (.start _ _ _) => t.runState = .running
    | .host .resume => s.runState = .awaitingInput ∧ t.runState = .running
    | .host (.enqueue _) => t.runState = s.runState
    | .host .observe => t.runState = s.runState
    | .host .readMemory => t.runState = s.runState
    | .step =>
      s.runState = .running ∧
      let fetched : Instr → Prop := fun i =>
        0 ≤ s.ip.toInt ∧ s.ip.toInt < s.mlen ∧ decode (s.mem.read s.ip.toInt.toNat) = .ok i
      match t.runState with
      | .running => ∃ i, fetched i ∧ i ≠ .halt ∧ ∀ d, i = .input d → s.inq ≠ []
      | .halted => fetched .halt
      | .faulted => t.faultKind ≠ none ∧ ¬ fetched .halt
      | .awaitingInput => s.inq = [] ∧ s.mode = .cooperative ∧ ∃ d, fetched (.input d)

/-- Suspension is exact: it changes STATE and nothing else, and a RESUME gives back the very state the step
started from, so the same IN is attempted again (42_io.md, 50_run_control_and_io.md section 3; D15, D22). -/
def Obligations.SuspensionIsUndoneByResume : Prop :=
  ∀ s t : State, step s = .next t → t.runState = .awaitingInput →
    t = { s with runState := .awaitingInput } ∧ act (.host .resume) t = .next s

/-! ## Operands -/

/-- R116, Position mode, for read operands and for the address of write operands. -/
def Obligations.PositionOperand : Prop :=
  ∀ (s : State) (r : Word),
    (r.toInt < 0 → readOperand s .position r = .error .negativeAddress ∧
      effectiveAddress s .position r = .error .negativeAddress) ∧
    (0 ≤ r.toInt → readOperand s .position r = .ok ⟨s.mem.read r.toInt.toNat, [r.toInt]⟩ ∧
      effectiveAddress s .position r = .ok r.toInt.toNat)

/-- Relative mode: the exact sum r + RB, ArithmeticOverflow if it does not fit (the spec's decision D2), else
NegativeAddress if it is below 0, else the cell it addresses (40_step_and_operands.md section 5). -/
def Obligations.RelativeOperand : Prop :=
  ∀ (s : State) (r : Word),
    let e := r.toInt + s.rb.toInt
    (¬ fits e → readOperand s .relative r = .error .arithmeticOverflow ∧
      effectiveAddress s .relative r = .error .arithmeticOverflow) ∧
    (fits e → e < 0 → readOperand s .relative r = .error .negativeAddress ∧
      effectiveAddress s .relative r = .error .negativeAddress) ∧
    (fits e → 0 ≤ e → readOperand s .relative r = .ok ⟨s.mem.read e.toNat, [e]⟩ ∧
      effectiveAddress s .relative r = .ok e.toNat)

/-- R118, Immediate mode: the raw value itself, no address formed, no fault; a write operand in this mode faults
before (R114). -/
def Obligations.ImmediateOperand : Prop :=
  (∀ (s : State) (r : Word), readOperand s .immediate r = .ok ⟨r, []⟩) ∧
  checkWriteMode .immediate = .error .invalidWriteTarget

/-! ## The instructions

`0 ≤ IP` is what the fetch check of the same step has established. The list `faults` is the order in which the
instruction's conditions are tested; the first that holds is raised (R248), and when none holds the instruction
completes with the whole next state shown, so that everything not shown is unchanged. -/

/-- R140. That an overflow is a fault is the spec's decision D2. -/
def Obligations.AddRule : Prop :=
  ∀ (s : State) (a b d : Mode), 0 ≤ s.ip.toInt →
    let v := (operandValue s a 1).toInt + (operandValue s b 2).toInt
    let faults := writeFaults d ++ cellFaults s 3 ++ operandFaults s a 1 ++ operandFaults s b 2 ++
      operandFaults s d 3 ++ rangeFaults v ++ rangeFaults (s.ip.toInt + 4)
    (firstFault faults = none → exec (.add a b d) s = .next { s with
      mem := s.mem.write (operandAddress s d 3).toNat (Word.ofInt v)
      ip := Word.ofInt (s.ip.toInt + 4)
      mlen := grow s.mlen (instrCells s 3 ++ operandTouched s a 1 ++ operandTouched s b 2 ++
        [operandAddress s d 3]) }) ∧
    ∀ k, firstFault faults = some k → exec (.add a b d) s = .next (takeFault k s)

/-- R141. That an overflow is a fault is the spec's decision D2. -/
def Obligations.MulRule : Prop :=
  ∀ (s : State) (a b d : Mode), 0 ≤ s.ip.toInt →
    let v := (operandValue s a 1).toInt * (operandValue s b 2).toInt
    let faults := writeFaults d ++ cellFaults s 3 ++ operandFaults s a 1 ++ operandFaults s b 2 ++
      operandFaults s d 3 ++ rangeFaults v ++ rangeFaults (s.ip.toInt + 4)
    (firstFault faults = none → exec (.mul a b d) s = .next { s with
      mem := s.mem.write (operandAddress s d 3).toNat (Word.ofInt v)
      ip := Word.ofInt (s.ip.toInt + 4)
      mlen := grow s.mlen (instrCells s 3 ++ operandTouched s a 1 ++ operandTouched s b 2 ++
        [operandAddress s d 3]) }) ∧
    ∀ k, firstFault faults = some k → exec (.mul a b d) s = .next (takeFault k s)

/-- R170: the signed comparison, 1 or 0. -/
def Obligations.LtRule : Prop :=
  ∀ (s : State) (a b d : Mode), 0 ≤ s.ip.toInt →
    let faults := writeFaults d ++ cellFaults s 3 ++ operandFaults s a 1 ++ operandFaults s b 2 ++
      operandFaults s d 3 ++ rangeFaults (s.ip.toInt + 4)
    (firstFault faults = none → exec (.lt a b d) s = .next { s with
      mem := s.mem.write (operandAddress s d 3).toNat
        (if (operandValue s a 1).toInt < (operandValue s b 2).toInt then 1 else 0)
      ip := Word.ofInt (s.ip.toInt + 4)
      mlen := grow s.mlen (instrCells s 3 ++ operandTouched s a 1 ++ operandTouched s b 2 ++
        [operandAddress s d 3]) }) ∧
    ∀ k, firstFault faults = some k → exec (.lt a b d) s = .next (takeFault k s)

/-- R171: equality of the whole values, 1 or 0. -/
def Obligations.EqRule : Prop :=
  ∀ (s : State) (a b d : Mode), 0 ≤ s.ip.toInt →
    let faults := writeFaults d ++ cellFaults s 3 ++ operandFaults s a 1 ++ operandFaults s b 2 ++
      operandFaults s d 3 ++ rangeFaults (s.ip.toInt + 4)
    (firstFault faults = none → exec (.eq a b d) s = .next { s with
      mem := s.mem.write (operandAddress s d 3).toNat
        (if operandValue s a 1 = operandValue s b 2 then 1 else 0)
      ip := Word.ofInt (s.ip.toInt + 4)
      mlen := grow s.mlen (instrCells s 3 ++ operandTouched s a 1 ++ operandTouched s b 2 ++
        [operandAddress s d 3]) }) ∧
    ∀ k, firstFault faults = some k → exec (.eq a b d) s = .next (takeFault k s)

/-- R150: the front value is consumed and stored; with INQ empty, after every other check, InputExhausted in
One-shot mode and suspension in Cooperative mode. -/
def Obligations.InputRule : Prop :=
  ∀ (s : State) (d : Mode), 0 ≤ s.ip.toInt →
    let faults := writeFaults d ++ cellFaults s 1 ++ operandFaults s d 1 ++ rangeFaults (s.ip.toInt + 2) ++
      [(decide (s.inq = [] ∧ s.mode = .oneShot), FaultKind.inputExhausted)]
    (firstFault faults = none →
      (∀ x rest, s.inq = x :: rest → exec (.input d) s = .next { s with
        inq := rest
        mem := s.mem.write (operandAddress s d 1).toNat x
        ip := Word.ofInt (s.ip.toInt + 2)
        mlen := grow s.mlen (instrCells s 1 ++ [operandAddress s d 1]) }) ∧
      (s.inq = [] → exec (.input d) s = .next { s with runState := .awaitingInput })) ∧
    ∀ k, firstFault faults = some k → exec (.input d) s = .next (takeFault k s)

/-- R152: the value is appended to OUT. -/
def Obligations.OutputRule : Prop :=
  ∀ (s : State) (a : Mode), 0 ≤ s.ip.toInt →
    let faults := cellFaults s 1 ++ operandFaults s a 1 ++ rangeFaults (s.ip.toInt + 2)
    (firstFault faults = none → exec (.output a) s = .next { s with
      out := s.out ++ [operandValue s a 1]
      ip := Word.ofInt (s.ip.toInt + 2)
      mlen := grow s.mlen (instrCells s 1 ++ operandTouched s a 1) }) ∧
    ∀ k, firstFault faults = some k → exec (.output a) s = .next (takeFault k s)

/-- R160: the target, unchecked, if a is not 0; both operands are resolved either way. -/
def Obligations.JumpIfTrueRule : Prop :=
  ∀ (s : State) (a t : Mode), 0 ≤ s.ip.toInt →
    let taken := (operandValue s a 1).toInt ≠ 0
    let faults := cellFaults s 2 ++ operandFaults s a 1 ++ operandFaults s t 2 ++
      (if taken then [] else rangeFaults (s.ip.toInt + 3))
    (firstFault faults = none → exec (.jt a t) s = .next { s with
      ip := if taken then operandValue s t 2 else Word.ofInt (s.ip.toInt + 3)
      mlen := grow s.mlen (instrCells s 2 ++ operandTouched s a 1 ++ operandTouched s t 2) }) ∧
    ∀ k, firstFault faults = some k → exec (.jt a t) s = .next (takeFault k s)

/-- R161: the target, unchecked, if a is 0; both operands are resolved either way. -/
def Obligations.JumpIfFalseRule : Prop :=
  ∀ (s : State) (a t : Mode), 0 ≤ s.ip.toInt →
    let taken := (operandValue s a 1).toInt = 0
    let faults := cellFaults s 2 ++ operandFaults s a 1 ++ operandFaults s t 2 ++
      (if taken then [] else rangeFaults (s.ip.toInt + 3))
    (firstFault faults = none → exec (.jf a t) s = .next { s with
      ip := if taken then operandValue s t 2 else Word.ofInt (s.ip.toInt + 3)
      mlen := grow s.mlen (instrCells s 2 ++ operandTouched s a 1 ++ operandTouched s t 2) }) ∧
    ∀ k, firstFault faults = some k → exec (.jf a t) s = .next (takeFault k s)

/-- R180: RB gains the value; the operand is resolved with the old RB. -/
def Obligations.AdjustRelativeBaseRule : Prop :=
  ∀ (s : State) (a : Mode), 0 ≤ s.ip.toInt →
    let v := s.rb.toInt + (operandValue s a 1).toInt
    let faults := cellFaults s 1 ++ operandFaults s a 1 ++ rangeFaults v ++ rangeFaults (s.ip.toInt + 2)
    (firstFault faults = none → exec (.arb a) s = .next { s with
      rb := Word.ofInt v
      ip := Word.ofInt (s.ip.toInt + 2)
      mlen := grow s.mlen (instrCells s 1 ++ operandTouched s a 1) }) ∧
    ∀ k, firstFault faults = some k → exec (.arb a) s = .next (takeFault k s)

/-- HALT: STATE becomes Halted and nothing else changes (46_halt.md). That IP is unchanged is the spec's decision
D14. -/
def Obligations.HaltRule : Prop :=
  ∀ s : State, exec .halt s = .next { s with runState := .halted }

/-! ## Frames -/

/-- The instructions that store nothing: OUT, JT, JF, ARB, HALT. Every cell of memory, MODE and INQ are unchanged;
RB but for ARB; OUT but for OUT; IP for HALT; STATE but for HALT and the fault registers, unless a fault was
raised. -/
def Obligations.NonStoringFrame : Prop :=
  ∀ (i : Instr) (s t : State), i.writeMode = none → exec i s = .next t →
    (∀ x, t.mem.read x = s.mem.read x) ∧ t.mode = s.mode ∧ t.inq = s.inq ∧
    ((∀ a, i ≠ .arb a) → t.rb = s.rb) ∧
    ((∀ a, i ≠ .output a) → t.out = s.out) ∧
    (i = .halt → t.ip = s.ip ∧ t.mlen = s.mlen) ∧
    ((t.runState = s.runState ∧ i ≠ .halt) ∨ t.runState = .faulted ∨ (i = .halt ∧ t.runState = .halted)) ∧
    ((t.faultKind = s.faultKind ∧ t.faultIp = s.faultIp ∧ t.faultInsn = s.faultInsn) ∨ t.runState = .faulted)

/-- The instructions that store: ADD, MUL, LT, EQ (destination operand 3) and IN (destination operand 1). For the
address a the destination operand gives, by the meaning's own `operandCell` and `effectiveAddress`, every cell but
a reads as before; if it gives none, or a fault is raised, every cell does. RB, MODE and OUT are unchanged; INQ but
for IN, which takes the front value at most; STATE and the fault registers unless a fault was raised or IN
suspended. -/
def Obligations.StoringFrame : Prop :=
  ∀ (i : Instr) (d : Mode) (s t : State), i.writeMode = some d → exec i s = .next t →
    let address := (operandCell s i.opcode.arity).bind (effectiveAddress s d)
    (∀ a, address = .ok a → ∀ x, x ≠ a → t.mem.read x = s.mem.read x) ∧
    (∀ k, address = .error k → ∀ x, t.mem.read x = s.mem.read x) ∧
    (t.runState = .faulted → s.runState ≠ .faulted → ∀ x, t.mem.read x = s.mem.read x) ∧
    t.rb = s.rb ∧ t.mode = s.mode ∧ t.out = s.out ∧
    (t.inq = s.inq ∨ ∃ x, i = .input d ∧ s.inq = x :: t.inq) ∧
    (t.runState = s.runState ∨ t.runState = .faulted ∨ (i = .input d ∧ s.inq = [] ∧ t = suspend s)) ∧
    ((t.faultKind = s.faultKind ∧ t.faultIp = s.faultIp ∧ t.faultInsn = s.faultInsn) ∨ t.runState = .faulted)

/-- R54: a write sets one cell and leaves every other unchanged. Every step performs at most one: memory is as it
was, or it is the old memory with one whole value written at the address the decoded instruction's destination
operand gives, by the meaning's own `operandCell` and `effectiveAddress`, and memory then covers that address. -/
def Obligations.WriteChangesOneCell : Prop :=
  (∀ (m : Memory) (a x : Nat) (v : Word), m.wf = true →
    (m.write a v).wf = true ∧ (m.write a v).read x = if x = a then v else m.read x) ∧
  ∀ s t : State, step s = .next t → t.mem = s.mem ∨
    ∃ i d a v, decode (s.mem.read s.ip.toInt.toNat) = .ok i ∧ i.writeMode = some d ∧
      (operandCell s i.opcode.arity).bind (effectiveAddress s d) = .ok a ∧ a ≤ Config.addrMax ∧ a < t.mlen ∧
      t.mem = s.mem.write a v

/-- Growth (20_memory.md section 2; D4, D11), written out apart from the model's `grow`: when a step commits and
goes on, MLEN becomes the larger of MLEN and 1 + x for the largest x of the touched addresses, which are IP, the
operand cells IP + 1 to IP + n, and the address of each operand that is not Immediate; a step that faults,
suspends or halts leaves MLEN as it was. -/
def Obligations.MemoryGrowsToTheTouchedAddresses : Prop :=
  ∀ s t : State, step s = .next t →
    (t.runState ≠ .running → t.mlen = s.mlen) ∧
    (t.runState = .running → ∃ i, decode (s.mem.read s.ip.toInt.toNat) = .ok i ∧
      let touched : Int → Prop := fun x =>
        (∃ k : Nat, k ≤ i.modes.length ∧ x = s.ip.toInt + k) ∨
        (∃ (k : Nat) (m : Mode), i.modes[k]? = some m ∧ m ≠ .immediate ∧ x = operandAddress s m (k + 1))
      s.mlen ≤ t.mlen ∧ (∀ x, touched x → x + 1 ≤ t.mlen) ∧
      (t.mlen = s.mlen ∨ ∃ x, touched x ∧ (t.mlen : Int) = x + 1))

/-- R181: ARB is the only writer of RB besides reset; no instruction without a Relative operand, ARB apart,
depends on RB; RB survives suspension and every transaction but START. -/
def Obligations.OnlyArbWritesRelativeBase : Prop :=
  (∀ (i : Instr) (s t : State), exec i s = .next t → (∀ a, i ≠ .arb a) → t.rb = s.rb) ∧
  (∀ (i : Instr) (s t : State) (b : Word), (∀ a, i ≠ .arb a) → Mode.relative ∉ i.modes → exec i s = .next t →
    exec i { s with rb := b } = .next { t with rb := b }) ∧
  (∀ (tr : Transaction) (s t : State), (∀ im m q, tr ≠ .start im m q) → transact tr s = .next t → t.rb = s.rb)

/-- Only JT and JF set IP to anything but IP or IP + width (43_jumps.md, derived there). -/
def Obligations.OnlyJumpsLeaveTheSequence : Prop :=
  ∀ (i : Instr) (s t : State), exec i s = .next t → (∀ a b, i ≠ .jt a b) → (∀ a b, i ≠ .jf a b) →
    t.ip = s.ip ∨ t.ip.toInt = s.ip.toInt + i.width

/-- R124: what is stored, emitted, tested, jumped to or added depends on the resolved values and not on the modes,
across any two states in which both instructions complete. -/
def Obligations.ModeIndependence : Prop :=
  (∀ mk ∈ [Instr.add, Instr.mul, Instr.lt, Instr.eq], ∀ (s s' t t' : State) (a b d a' b' d' : Mode),
    s.runState = .running → s'.runState = .running → 0 ≤ s.ip.toInt → 0 ≤ s'.ip.toInt →
    s.mem.wf = true → s'.mem.wf = true →
    operandValue s a 1 = operandValue s' a' 1 → operandValue s b 2 = operandValue s' b' 2 →
    exec (mk a b d) s = .next t → t.runState = .running →
    exec (mk a' b' d') s' = .next t' → t'.runState = .running →
    t.mem.read (operandAddress s d 3).toNat = t'.mem.read (operandAddress s' d' 3).toNat) ∧
  (∀ (s s' t t' : State) (a a' : Mode), s.runState = .running → s'.runState = .running →
    0 ≤ s.ip.toInt → 0 ≤ s'.ip.toInt → operandValue s a 1 = operandValue s' a' 1 →
    exec (.output a) s = .next t → t.runState = .running →
    exec (.output a') s' = .next t' → t'.runState = .running → t.out.getLast? = t'.out.getLast?) ∧
  (∀ mk ∈ [Instr.jt, Instr.jf], ∀ (s s' t t' : State) (a b a' b' : Mode),
    s.runState = .running → s'.runState = .running → 0 ≤ s.ip.toInt → s.ip = s'.ip →
    operandValue s a 1 = operandValue s' a' 1 → operandValue s b 2 = operandValue s' b' 2 →
    exec (mk a b) s = .next t → t.runState = .running →
    exec (mk a' b') s' = .next t' → t'.runState = .running → t.ip = t'.ip) ∧
  (∀ (s s' t t' : State) (a a' : Mode), s.runState = .running → s'.runState = .running →
    0 ≤ s.ip.toInt → 0 ≤ s'.ip.toInt → operandValue s a 1 = operandValue s' a' 1 →
    exec (.arb a) s = .next t → t.runState = .running →
    exec (.arb a') s' = .next t' → t'.runState = .running →
    t.rb.toInt - s.rb.toInt = t'.rb.toInt - s'.rb.toInt)

/-! ## Reset, the host, and invariants -/

/-- The invariants hold at `State.reset`, whose arguments are the model's choice (log entry 4). -/
def Obligations.ResetMeetsInvariants : Prop := State.reset.Inv

/-- Every step keeps the invariants, from every state that meets them, reached or not (10_state.md section 10). -/
def Obligations.StepKeepsInvariants : Prop :=
  ∀ s t : State, s.Inv → step s = .next t → t.Inv

/-- Every event keeps the invariants, from every state that meets them, reached or not: a step, and every host
transaction with every argument, START included (10_state.md section 10). -/
def Obligations.EventsKeepInvariants : Prop :=
  ∀ (e : Event) (s t : State), s.Inv → act e s = .next t → t.Inv

/-- Every state an instance can be in, for every legal START and every sequence of steps and transactions after it,
meets the invariants, and so every cell at or above MLEN reads 0 (10_state.md section 10). -/
def Obligations.ReachableStatesMeetInvariants : Prop :=
  ∀ s : State, Reachable s → s.Inv ∧ ∀ a, s.mlen ≤ a → s.mem.read a = 0

/-- MLEN never decreases, OUT only grows at its end, MODE is constant, between two STARTs (10_state.md section 10,
derived there; D23). -/
def Obligations.MonotoneBetweenResets : Prop :=
  ∀ (e : Event) (s t : State), (∀ im m q, e ≠ .host (.start im m q)) → act e s = .next t →
    s.mlen ≤ t.mlen ∧ s.out <+: t.out ∧ t.mode = s.mode

/-- START with legal arguments, in any state: the reset values of every item (10_state.md section 11; D19). -/
def Obligations.StartGivesResetValues : Prop :=
  ∀ (image q0 : List Int) (mode : RunMode) (s : State),
    (∀ v ∈ image, fits v) → (∀ v ∈ q0, fits v) → image.length ≤ Config.addrMax + 1 →
    ∃ t, act (.host (.start image mode q0)) s = .next t ∧
      (∀ a, (t.mem.read a).toInt = image.getD a 0) ∧ t.mem.wf = true ∧ t.mlen = image.length ∧
      t.ip = 0 ∧ t.rb = 0 ∧ t.runState = .running ∧ t.mode = mode ∧ t.faultKind = none ∧ t.faultIp = 0 ∧
      t.faultInsn = 0 ∧ t.inq.map BitVec.toInt = q0 ∧ t.out = []

/-- START with a value that does not fit or too long an image is refused (70_reset_and_hazards.md section 1; D27). -/
def Obligations.IllegalStartIsRefused : Prop :=
  ∀ (image q0 : List Int) (mode : RunMode) (s : State),
    ((∃ v ∈ image, ¬ fits v) ∨ (∃ v ∈ q0, ¬ fits v) ∨ Config.addrMax + 1 < image.length) →
    act (.host (.start image mode q0)) s = .refused .illegalArgument

/-- `State.reset` is START with an empty image, One-shot mode and no input: the model's choice (log entry 4). -/
def Obligations.ResetIsAnEmptyStart : Prop :=
  ∀ s : State, act (.host (.start [] .oneShot [])) s = .next State.reset

/-- ENQUEUE, RESUME, OBSERVE with what it returns, and READ_MEMORY (50_run_control_and_io.md section 3; D20, D21,
D22, D28). That ENQUEUE is no move of a One-shot host is log entry 10. -/
def Obligations.HostTransactionEffects : Prop :=
  (∀ (v : Int) (s : State), s.mode = .cooperative → fits v →
    act (.host (.enqueue v)) s = .next { s with inq := s.inq ++ [Word.ofInt v] }) ∧
  (∀ (v : Int) (s : State), ¬ fits v → ∃ r, act (.host (.enqueue v)) s = .refused r) ∧
  (∀ s : State, s.runState = .awaitingInput →
    act (.host .resume) s = .next { s with runState := .running }) ∧
  (∀ s : State, s.runState ≠ .awaitingInput → act (.host .resume) s = .refused .resumeNotEnabled) ∧
  (∀ s : State, act (.host .observe) s = .next s ∧
    (observe s).runState = s.runState ∧ (observe s).mode = s.mode ∧ (observe s).faultKind = s.faultKind ∧
    (observe s).faultIp = s.faultIp ∧ (observe s).faultInsn = s.faultInsn ∧ (observe s).out = s.out ∧
    ((observe s).inqEmpty = true ↔ s.inq = [])) ∧
  (∀ s : State, s.runState ≠ .running → act (.host .readMemory) s = .next s ∧
    ∃ r, readMemory s = some r ∧ r.ip = s.ip ∧ r.rb = s.rb ∧ r.mlen = s.mlen ∧ r.cells.length = s.mlen ∧
      ∀ a, a < s.mlen → r.cells[a]? = some (s.mem.read a)) ∧
  (∀ s : State, s.runState = .running → readMemory s = none ∧
    act (.host .readMemory) s = .refused .readMemoryNotEnabled)

/-- Halted and Faulted are terminal: no step, and no transaction but START changes anything but the back of INQ
(46_halt.md, 60_exceptions.md section 3). -/
def Obligations.EndedStatesAreTerminal : Prop :=
  ∀ (e : Event) (s t : State), s.ended = true → (∀ im m q, e ≠ .host (.start im m q)) → act e s = .next t →
    e ≠ .step ∧ e ≠ .host .resume ∧ ∃ vs, t = { s with inq := s.inq ++ vs }

/-- R290: values are consumed from INQ front to back, one per committed IN, and appended to OUT one per committed
OUT, in program order, visible at the commit. -/
def Obligations.ChannelOrder : Prop :=
  ∀ s t : State, s.mem.wf = true → step s = .next t →
    (t.runState ≠ .running → t.inq = s.inq ∧ t.out = s.out) ∧
    (t.runState = .running → ∃ i, decode (s.mem.read s.ip.toInt.toNat) = .ok i ∧
      ((∃ d x, i = .input d ∧ s.inq = x :: t.inq ∧ t.mem.read (operandAddress s d 1).toNat = x ∧ t.out = s.out) ∨
       (∃ a, i = .output a ∧ t.out = s.out ++ [operandValue s a 1] ∧ t.inq = s.inq) ∨
       ((∀ d, i ≠ .input d) ∧ (∀ a, i ≠ .output a) ∧ t.inq = s.inq ∧ t.out = s.out)))

/-- Suspension is transparent (50_run_control_and_io.md section 2, derived there). Drive a Cooperative instance by
any enabled sequence of steps, ENQUEUEs and RESUMEs; then the same state, a suspension set aside, is reached by
steps alone from the start state with all those values already in INQ. So nothing depends on when values were
enqueued or on how often the instance suspended. -/
def Obligations.RunDependsOnlyOnEnqueuedValues : Prop :=
  ∀ (ds : List Drive) (s t : State), s.mode = .cooperative → s.runState = .running → drive ds s = some t →
    ∃ n, n ≤ ds.length ∧
      Host.Core.run Sys2Proof.core n { s with inq := s.inq ++ enqueued ds } = .next t.awake

/-- R69: an event at one instance leaves every other as it was, and its effect depends on that instance alone. -/
def Obligations.InstancesAreIsolated : Prop :=
  ∀ (k : Nat) (e : Event) (all all' : List State), actOn k e all = .next all' →
    (∀ j, j ≠ k → all'[j]? = all[j]?) ∧
    ∀ other : List State, other[k]? = all[k]? →
      ∃ other', actOn k e other = .next other' ∧ other'[k]? = all'[k]?

/-- A run call that ends has made steps only and ends where STATE is first not Running (50_run_control_and_io.md
section 2). -/
def Obligations.RunCallEndsWhenNotRunning : Prop :=
  ∀ (fuel : Nat) (s t : State), runCall fuel s = some t →
    t.runState ≠ .running ∧ ∃ n, n ≤ fuel ∧ Host.Core.run Sys2Proof.core n s = .next t ∧
      ∀ m u, m < n → Host.Core.run Sys2Proof.core m s = .next u → u.runState = .running
end

