-- ==== Sys2Proof/Laws/Memory.lean ====
section
/-! SUPPORT. Laws of memory: read after write, the canonical form is kept by every operation, and equal reads
of two canonical memories mean equal data. -/

namespace Sys2Proof.Machine

@[simp] theorem Memory.read_nil (a : Nat) : Memory.read [] a = 0 := rfl

theorem Memory.read_cons_pair (b a : Nat) (x : Word) (m : Memory) :
    Memory.read ((b, x) :: m) a = if b = a then x else Memory.read m a := rfl

theorem Memory.read_cons (b a : Nat) (x : Word) (m : Memory) (h : m.read b = 0) :
    (Memory.cons b x m).read a = if b = a then x else m.read a := by
  unfold Memory.cons
  split
  · split <;> simp_all
  · rfl

/-- A memory in canonical form whose listed addresses all lie above `b` reads 0 up to `b`. -/
theorem Memory.read_eq_zero_of_above {m : Memory} {a : Nat} (h : ∀ c ∈ m, a < c.1) : m.read a = 0 := by
  induction m with
  | nil => rfl
  | cons c m ih =>
    have hc := h c (by simp)
    rw [Memory.read_cons_pair, if_neg (by omega), ih fun c' hc' => h c' (by simp [hc'])]

theorem Memory.read_eq_zero_of_below {m : Memory} {a : Nat} (h : ∀ c ∈ m, c.1 < a) : m.read a = 0 := by
  induction m with
  | nil => rfl
  | cons c m ih =>
    have hc := h c (by simp)
    rw [Memory.read_cons_pair, if_neg (by omega), ih fun c' hc' => h c' (by simp [hc'])]

/-- What the canonical form says of a memory with a first entry. -/
theorem Memory.wf_cons_iff {b : Nat} {x : Word} {m : Memory} :
    Memory.wf ((b, x) :: m) = true ↔ x ≠ 0 ∧ (∀ c ∈ m, b < c.1) ∧ m.wf = true := by
  simp [Memory.wf, and_assoc]

theorem Memory.wf_cons {b : Nat} {x : Word} {m : Memory} (hm : m.wf = true) (h : ∀ c ∈ m, b < c.1) :
    (Memory.cons b x m).wf = true := by
  unfold Memory.cons
  split
  · exact hm
  · exact Memory.wf_cons_iff.2 ⟨‹_›, h, hm⟩

theorem Memory.mem_cons {b : Nat} {x : Word} {m : Memory} {c : Nat × Word} (h : c ∈ Memory.cons b x m) :
    c = (b, x) ∨ c ∈ m := by
  unfold Memory.cons at h
  split at h
  · exact .inr h
  · simpa using h

/-- Every entry of a written memory was there or is the one written. -/
theorem Memory.mem_write {m : Memory} {a : Nat} {v : Word} {c : Nat × Word} (h : c ∈ m.write a v) :
    c = (a, v) ∨ c ∈ m := by
  induction m with
  | nil => exact Memory.mem_cons h
  | cons p m ih =>
    obtain ⟨b, x⟩ := p
    simp only [Memory.write] at h
    split at h
    · rcases List.mem_cons.1 h with h | h
      · simp [h]
      · rcases ih h with h | h <;> simp [h]
    · split at h
      · rcases Memory.mem_cons h with h | h <;> simp [h]
      · simpa using Memory.mem_cons h

/-- A write keeps the canonical form. -/
theorem Memory.wf_write {m : Memory} (hm : m.wf = true) (a : Nat) (v : Word) : (m.write a v).wf = true := by
  induction m with
  | nil => exact Memory.wf_cons rfl (by simp)
  | cons p m ih =>
    obtain ⟨b, x⟩ := p
    obtain ⟨hx, hb, hw⟩ := Memory.wf_cons_iff.1 hm
    simp only [Memory.write]
    split
    · refine Memory.wf_cons_iff.2 ⟨hx, fun c hc => ?_, ih hw⟩
      rcases Memory.mem_write hc with rfl | hc
      · assumption
      · exact hb c hc
    · split
      · subst b; exact Memory.wf_cons hw hb
      · refine Memory.wf_cons hm fun c hc => ?_
        rcases List.mem_cons.1 hc with rfl | hc
        · simp only; omega
        · have := hb c hc; omega

theorem Memory.read_write_self {m : Memory} (hm : m.wf = true) (a : Nat) (v : Word) :
    (m.write a v).read a = v := by
  induction m with
  | nil => rw [Memory.write, Memory.read_cons _ _ _ _ rfl, if_pos rfl]
  | cons p m ih =>
    obtain ⟨b, x⟩ := p
    obtain ⟨-, hb, hw⟩ := Memory.wf_cons_iff.1 hm
    simp only [Memory.write]
    split
    · rw [Memory.read_cons_pair, if_neg (by omega), ih hw]
    · split
      · subst b
        rw [Memory.read_cons _ _ _ _ (Memory.read_eq_zero_of_above hb), if_pos rfl]
      · rw [Memory.read_cons, if_pos rfl]
        refine Memory.read_eq_zero_of_above fun c hc => ?_
        rcases List.mem_cons.1 hc with rfl | hc
        · simp only; omega
        · have := hb c hc; omega

theorem Memory.read_write_other (m : Memory) {a x : Nat} (v : Word) (h : x ≠ a) :
    (m.write a v).read x = m.read x := by
  have key : ∀ m' : Memory, (Memory.cons a v m').read x = m'.read x := by
    intro m'
    unfold Memory.cons
    split
    · rfl
    · rw [Memory.read_cons_pair, if_neg (Ne.symm h)]
  induction m with
  | nil => exact key []
  | cons p m ih =>
    obtain ⟨b, y⟩ := p
    simp only [Memory.write]
    split
    · rw [Memory.read_cons_pair, Memory.read_cons_pair, ih]
    · split
      · subst b; rw [key, Memory.read_cons_pair, if_neg (Ne.symm h)]
      · exact key _

theorem Memory.mem_loadFrom {l : List Word} {a : Nat} {c : Nat × Word} (h : c ∈ Memory.loadFrom a l) :
    a ≤ c.1 ∧ c.1 < a + l.length := by
  induction l generalizing a with
  | nil => simp [Memory.loadFrom] at h
  | cons v l ih =>
    rcases Memory.mem_cons h with rfl | h
    · simp
    · have := ih h; simp only [List.length_cons]; omega

/-- Loading an image gives a memory in canonical form. -/
theorem Memory.wf_loadFrom (a : Nat) (l : List Word) : (Memory.loadFrom a l).wf = true := by
  induction l generalizing a with
  | nil => rfl
  | cons v l ih => exact Memory.wf_cons (ih _) fun c hc => by have := Memory.mem_loadFrom hc; omega

theorem Memory.read_loadFrom (a x : Nat) (l : List Word) :
    (Memory.loadFrom a l).read x = if a ≤ x then l.getD (x - a) 0 else 0 := by
  induction l generalizing a with
  | nil => simp [Memory.loadFrom]
  | cons v l ih =>
    rw [Memory.loadFrom, Memory.read_cons, ih]
    · rcases Nat.lt_trichotomy a x with h | rfl | h
      · rw [if_neg (by omega), if_pos (by omega), if_pos (by omega)]
        have : x - a = (x - (a + 1)) + 1 := by omega
        rw [this]; rfl
      · simp
      · rw [if_neg (by omega), if_neg (by omega), if_neg (by omega)]
    · exact Memory.read_eq_zero_of_above fun c hc => by have := Memory.mem_loadFrom hc; omega

theorem Memory.wf_placeFrom {m : Memory} (hm : m.wf = true) (a : Nat) (l : List Word) :
    (m.placeFrom a l).wf = true := by
  induction l generalizing m a with
  | nil => exact hm
  | cons v l ih =>
    apply ih
    split
    · exact Memory.wf_write hm a v
    · exact hm

/-- Canonical: two memories in canonical form that read alike are the same data. -/
theorem Memory.ext_of_wf {m n : Memory} (hm : m.wf = true) (hn : n.wf = true)
    (h : ∀ a, m.read a = n.read a) : m = n := by
  induction m generalizing n with
  | nil =>
    cases n with
    | nil => rfl
    | cons q n =>
      obtain ⟨b, y⟩ := q
      obtain ⟨hy, -, -⟩ := Memory.wf_cons_iff.1 hn
      exact absurd (h b) (by simpa [Memory.read_cons_pair] using Ne.symm hy)
  | cons p m ih =>
    obtain ⟨a, x⟩ := p
    obtain ⟨hx, ha, hm'⟩ := Memory.wf_cons_iff.1 hm
    cases n with
    | nil => exact absurd (h a) (by simpa [Memory.read_cons_pair] using hx)
    | cons q n =>
      obtain ⟨b, y⟩ := q
      obtain ⟨hy, hb, hn'⟩ := Memory.wf_cons_iff.1 hn
      have hab : a = b := by
        rcases Nat.lt_trichotomy a b with hlt | rfl | hlt
        · have := h a
          rw [Memory.read_cons_pair, if_pos rfl, Memory.read_eq_zero_of_above] at this
          · exact absurd this hx
          · intro c hc
            rcases List.mem_cons.1 hc with rfl | hc
            · exact hlt
            · have := hb c hc; omega
        · rfl
        · have := h b
          rw [Memory.read_cons_pair (a := b), if_neg (by omega), Memory.read_cons_pair, if_pos rfl,
            Memory.read_eq_zero_of_above] at this
          · exact absurd this.symm hy
          · intro c hc; have := ha c hc; omega
      subst hab
      have hxy : x = y := by simpa [Memory.read_cons_pair] using h a
      subst hxy
      rw [ih hm' hn' fun z => ?_]
      by_cases hz : a = z
      · subst hz
        rw [Memory.read_eq_zero_of_above ha, Memory.read_eq_zero_of_above hb]
      · simpa [Memory.read_cons_pair, hz] using h z

/-! ## Growth -/

theorem grow_append (n : Nat) (l l' : List Int) : grow n (l ++ l') = grow (grow n l) l' := by
  simp [grow]

@[simp] theorem grow_nil (n : Nat) : grow n [] = n := rfl

theorem grow_cons (n : Nat) (a : Int) (l : List Int) : grow n (a :: l) = grow (max n (a + 1).toNat) l := rfl

theorem le_grow (n : Nat) (l : List Int) : n ≤ grow n l := by
  induction l generalizing n with
  | nil => simp
  | cons a l ih => rw [grow_cons]; exact le_trans (le_max_left _ _) (ih _)

/-- Every touched address is below the grown length (R55). -/
theorem lt_grow {n : Nat} {l : List Int} {a : Nat} (h : (a : Int) ∈ l) : a < grow n l := by
  induction l generalizing n with
  | nil => simp at h
  | cons b l ih =>
    rw [grow_cons]
    rcases List.mem_cons.1 h with h | h
    · subst h
      have := le_grow (max n ((a : Int) + 1).toNat) l
      omega
    · exact ih h

/-- Growth stays at or below a bound that the length and every touched address respect. -/
theorem grow_le {n b : Nat} {l : List Int} (hn : n ≤ b) (hl : ∀ a ∈ l, a < (b : Int)) : grow n l ≤ b := by
  induction l generalizing n with
  | nil => simpa using hn
  | cons a l ih =>
    rw [grow_cons]
    refine ih ?_ fun x hx => hl x (by simp [hx])
    have := hl a (by simp)
    omega

/-- Every touched address is covered, negative ones included. -/
theorem succ_le_grow {n : Nat} {l : List Int} {a : Int} (h : a ∈ l) : a + 1 ≤ grow n l := by
  induction l generalizing n with
  | nil => simp at h
  | cons b l ih =>
    rw [grow_cons]
    rcases List.mem_cons.1 h with h | h
    · subst h
      have := le_grow (max n (a + 1).toNat) l
      omega
    · exact ih h

/-- The grown length is the old one or one more than a touched address. -/
theorem grow_eq_or (n : Nat) (l : List Int) : grow n l = n ∨ ∃ a ∈ l, (grow n l : Int) = a + 1 := by
  induction l generalizing n with
  | nil => simp
  | cons b l ih =>
    rw [grow_cons]
    rcases ih (max n (b + 1).toNat) with h | ⟨a, ha, h⟩
    · rcases le_total (b + 1).toNat n with hb | hb
      · exact .inl (by omega)
      · by_cases hn : n = (b + 1).toNat
        · exact .inl (by omega)
        · exact .inr ⟨b, by simp, by omega⟩
    · exact .inr ⟨a, by simp [ha], h⟩

end Sys2Proof.Machine
end

