-- ==== Sys2Proof/Laws/State.lean ====
section
/-! SUPPORT. Laws of state: one lemma per field per named update, and what a completed instruction answers. -/

namespace Sys2Proof.Machine

section Updates

variable (s : State) (ip : Word) (T : List Int) (a : Nat) (v : Word) (k : FaultKind)

@[simp] theorem commit_mem : (commit s ip T).mem = s.mem := rfl
@[simp] theorem commit_mlen : (commit s ip T).mlen = grow s.mlen T := rfl
@[simp] theorem commit_ip : (commit s ip T).ip = ip := rfl
@[simp] theorem commit_rb : (commit s ip T).rb = s.rb := rfl
@[simp] theorem commit_runState : (commit s ip T).runState = s.runState := rfl
@[simp] theorem commit_mode : (commit s ip T).mode = s.mode := rfl
@[simp] theorem commit_faultKind : (commit s ip T).faultKind = s.faultKind := rfl
@[simp] theorem commit_faultIp : (commit s ip T).faultIp = s.faultIp := rfl
@[simp] theorem commit_faultInsn : (commit s ip T).faultInsn = s.faultInsn := rfl
@[simp] theorem commit_inq : (commit s ip T).inq = s.inq := rfl
@[simp] theorem commit_out : (commit s ip T).out = s.out := rfl

@[simp] theorem commitStore_mem : (commitStore s ip T a v).mem = s.mem.write a v := rfl
@[simp] theorem commitStore_mlen : (commitStore s ip T a v).mlen = grow s.mlen T := rfl
@[simp] theorem commitStore_ip : (commitStore s ip T a v).ip = ip := rfl
@[simp] theorem commitStore_rb : (commitStore s ip T a v).rb = s.rb := rfl
@[simp] theorem commitStore_runState : (commitStore s ip T a v).runState = s.runState := rfl
@[simp] theorem commitStore_mode : (commitStore s ip T a v).mode = s.mode := rfl
@[simp] theorem commitStore_faultKind : (commitStore s ip T a v).faultKind = s.faultKind := rfl
@[simp] theorem commitStore_faultIp : (commitStore s ip T a v).faultIp = s.faultIp := rfl
@[simp] theorem commitStore_faultInsn : (commitStore s ip T a v).faultInsn = s.faultInsn := rfl
@[simp] theorem commitStore_inq : (commitStore s ip T a v).inq = s.inq := rfl
@[simp] theorem commitStore_out : (commitStore s ip T a v).out = s.out := rfl

@[simp] theorem takeFault_mem : (takeFault k s).mem = s.mem := rfl
@[simp] theorem takeFault_mlen : (takeFault k s).mlen = s.mlen := rfl
@[simp] theorem takeFault_ip : (takeFault k s).ip = s.ip := rfl
@[simp] theorem takeFault_rb : (takeFault k s).rb = s.rb := rfl
@[simp] theorem takeFault_runState : (takeFault k s).runState = .faulted := rfl
@[simp] theorem takeFault_mode : (takeFault k s).mode = s.mode := rfl
@[simp] theorem takeFault_faultKind : (takeFault k s).faultKind = some k := rfl
@[simp] theorem takeFault_faultIp : (takeFault k s).faultIp = s.ip := rfl
@[simp] theorem takeFault_faultInsn :
    (takeFault k s).faultInsn = if k = .ipOutOfRange then 0 else s.instrWord := rfl
@[simp] theorem takeFault_inq : (takeFault k s).inq = s.inq := rfl
@[simp] theorem takeFault_out : (takeFault k s).out = s.out := rfl

@[simp] theorem suspend_mem : (suspend s).mem = s.mem := rfl
@[simp] theorem suspend_mlen : (suspend s).mlen = s.mlen := rfl
@[simp] theorem suspend_ip : (suspend s).ip = s.ip := rfl
@[simp] theorem suspend_rb : (suspend s).rb = s.rb := rfl
@[simp] theorem suspend_runState : (suspend s).runState = .awaitingInput := rfl
@[simp] theorem suspend_mode : (suspend s).mode = s.mode := rfl
@[simp] theorem suspend_faultKind : (suspend s).faultKind = s.faultKind := rfl
@[simp] theorem suspend_faultIp : (suspend s).faultIp = s.faultIp := rfl
@[simp] theorem suspend_faultInsn : (suspend s).faultInsn = s.faultInsn := rfl
@[simp] theorem suspend_inq : (suspend s).inq = s.inq := rfl
@[simp] theorem suspend_out : (suspend s).out = s.out := rfl

end Updates

@[simp] theorem complete_ok (s t : State) : complete s (.ok t) = .next t := rfl
@[simp] theorem complete_error (s : State) (k : FaultKind) : complete s (.error k) = .next (takeFault k s) := rfl

/-- What a completed instruction answers: what it commits, or fault entry (R127). -/
theorem complete_eq_next {s t : State} {r : Except FaultKind State} (h : complete s r = .next t) :
    r = .ok t ∨ ∃ k, r = .error k ∧ t = takeFault k s := by
  cases r with
  | ok u => left; simp only [complete_ok, Host.Outcome.next.injEq] at h; rw [h]
  | error k => right; exact ⟨k, rfl, by simpa using h.symm⟩

/-- An instruction always answers a next state (R127). -/
theorem complete_next (s : State) (r : Except FaultKind State) : ∃ t, complete s r = .next t := by
  cases r <;> exact ⟨_, rfl⟩

/-- A sequence of two resolutions that succeeds: both do. -/
theorem bind_eq_ok {α β : Type} {x : Except FaultKind α} {f : α → Except FaultKind β} {b : β}
    (h : (x >>= f) = .ok b) : ∃ a, x = .ok a ∧ f a = .ok b := by
  cases x with
  | error e => cases h
  | ok a => exact ⟨a, rfl, h⟩

/-- A sequence of two resolutions that faults: the first does, or it succeeds and the second does. -/
theorem bind_eq_error {α β : Type} {x : Except FaultKind α} {f : α → Except FaultKind β} {k : FaultKind}
    (h : (x >>= f) = .error k) : x = .error k ∨ ∃ a, x = .ok a ∧ f a = .error k := by
  cases x with
  | error e => exact .inl (by cases h; rfl)
  | ok a => exact .inr ⟨a, rfl, h⟩

end Sys2Proof.Machine
end

