-- ==== Sys2Proof/Laws/Word.lean ====
section
/-! SUPPORT. Laws of values: every value fits, and narrowing a number that fits loses nothing. -/

namespace Sys2Proof

/-- `fits` with the bounds written out, for linear arithmetic. -/
theorem fits_iff (v : Int) : fits v ↔ -9223372036854775808 ≤ v ∧ v ≤ 9223372036854775807 := Iff.rfl

theorem Word.fits_toInt (w : Word) : fits w.toInt := by
  have h1 := BitVec.le_toInt w
  have h2 := BitVec.toInt_lt (x := w)
  rw [fits_iff]
  constructor
  · simpa using h1
  · simp at h2; omega

theorem Word.toInt_ofInt {v : Int} (h : fits v) : (Word.ofInt v).toInt = v := by
  rw [fits_iff] at h
  exact BitVec.toInt_ofInt_eq_self (by decide) (by simpa using h.1) (by simp; omega)

theorem Word.toInt_inj {v w : Word} : v.toInt = w.toInt ↔ v = w := BitVec.toInt_inj

theorem Word.toInt_eq_zero {w : Word} : w.toInt = 0 ↔ w = 0 := by
  rw [← Word.toInt_inj]; simp

end Sys2Proof
end

