-- ==== Sys2Proof/Laws/Operands.lean ====
section
/-! SUPPORT. Laws of operands: each resolving function, in the terms of Safety.lean: which fault it raises first,
and what it answers when none holds. One lemma per function; later proofs cite these and unfold none. -/

namespace Sys2Proof.Machine

/-- What a resolution answers: the first fault of a list, or a value. -/
def faultsOr {α : Type} (faults : List (Bool × FaultKind)) (a : α) : Except FaultKind α :=
  match firstFault faults with
  | some k => .error k
  | none => .ok a

@[simp] theorem firstFault_nil : firstFault [] = none := rfl

theorem firstFault_append (l l' : List (Bool × FaultKind)) :
    firstFault (l ++ l') = match firstFault l with | some k => some k | none => firstFault l' := by
  induction l with
  | nil => rfl
  | cons p l ih =>
    obtain ⟨b, k⟩ := p
    cases b
    · simpa [firstFault] using ih
    · rfl

theorem faultsOr_none {α : Type} {l : List (Bool × FaultKind)} {a : α} (h : firstFault l = none) :
    faultsOr l a = .ok a := by simp [faultsOr, h]

theorem faultsOr_some {α : Type} {l : List (Bool × FaultKind)} {a : α} {k : FaultKind}
    (h : firstFault l = some k) : faultsOr l a = .error k := by simp [faultsOr, h]

/-- Two resolutions in sequence raise the first fault of both lists in order. -/
theorem faultsOr_bind {α β : Type} (l l' : List (Bool × FaultKind)) (a : α) (b : β)
    (f : α → Except FaultKind β) (h : firstFault l = none → f a = faultsOr l' b) :
    (faultsOr l a >>= f) = faultsOr (l ++ l') b := by
  unfold faultsOr at *
  rw [firstFault_append]
  cases hl : firstFault l with
  | some k => rfl
  | none => exact h hl

@[simp] theorem faultsOr_nil {α : Type} (a : α) : faultsOr [] a = .ok a := rfl

theorem narrow_eq (v : Int) : narrow v = faultsOr (rangeFaults v) (Word.ofInt v) := by
  unfold narrow faultsOr rangeFaults firstFault
  by_cases h : fits v <;> simp [h, firstFault]

theorem nextIp_eq (s : State) (n : Nat) :
    nextIp s n = faultsOr (rangeFaults (s.ip.toInt + n)) (Word.ofInt (s.ip.toInt + n)) := narrow_eq _

theorem checkWriteMode_eq (m : Mode) : checkWriteMode m = faultsOr (writeFaults m) () := by
  cases m <;> rfl

theorem operandCell_eq {s : State} (h : 0 ≤ s.ip.toInt) (k : Nat) :
    operandCell s k =
      faultsOr (rangeFaults (s.ip.toInt + k)) (operandRaw s k) := by
  unfold operandCell cellAt faultsOr operandRaw rangeFaults
  rw [if_neg (by omega)]
  by_cases hf : fits (s.ip.toInt + k) <;> simp [hf, firstFault]

theorem addressSum_operandRaw (s : State) (m : Mode) (k : Nat) :
    addressSum s m (operandRaw s k) = operandAddress s m k := by
  cases m <;> rfl

theorem effectiveAddress_eq (s : State) {m : Mode} (hm : m ≠ .immediate) (k : Nat) :
    effectiveAddress s m (operandRaw s k) = faultsOr (operandFaults s m k) (operandAddress s m k).toNat := by
  unfold effectiveAddress checkAddress faultsOr operandFaults
  rw [addressSum_operandRaw]
  by_cases h1 : fits (operandAddress s m k) <;> by_cases h2 : operandAddress s m k < 0 <;>
    simp [h1, h2, hm, firstFault]

/-- An effective address that a function answers is a valid address (R50). -/
theorem effectiveAddress_le {s : State} {m : Mode} {r : Word} {a : Nat}
    (h : effectiveAddress s m r = .ok a) : a ≤ Config.addrMax := by
  unfold effectiveAddress checkAddress at h
  split at h
  · rename_i hf
    split at h <;> cases h
    rw [fits_iff] at hf
    show _ ≤ 9223372036854775807
    omega
  · cases h

theorem operandFaults_ne_none {s : State} {m : Mode} {k : Nat} (hm : m ≠ .immediate)
    (h : operandAddress s m k < 0) : firstFault (operandFaults s m k) ≠ none := by
  by_cases hf : fits (operandAddress s m k) <;> simp [operandFaults, firstFault, hm, h, hf]

theorem readOperand_eq (s : State) (m : Mode) (k : Nat) :
    readOperand s m (operandRaw s k) =
      faultsOr (operandFaults s m k) ⟨operandValue s m k, operandTouched s m k⟩ := by
  have key : ∀ m, m ≠ .immediate →
      ((effectiveAddress s m (operandRaw s k)) >>=
        fun a => (.ok ⟨s.mem.read a, [(a : Int)]⟩ : Except FaultKind ReadOperand)) =
      faultsOr (operandFaults s m k) ⟨operandValue s m k, operandTouched s m k⟩ := by
    intro m hm
    rw [effectiveAddress_eq s hm, faultsOr_bind _ [] _ _ _ (fun h => ?_), List.append_nil]
    have hneg : ¬ operandAddress s m k < 0 := by
      intro hlt
      exact absurd h (operandFaults_ne_none hm hlt)
    simp only [operandValue, operandTouched, if_neg hm, faultsOr_nil, Int.toNat_of_nonneg (not_lt.1 hneg)]
  cases m with
  | immediate => simp [readOperand, operandFaults, faultsOr, firstFault, operandValue, operandTouched]
  | position => exact key .position (by decide)
  | relative => exact key .relative (by decide)

theorem cellFaults_one (s : State) : cellFaults s 1 = rangeFaults (s.ip.toInt + (1 : Nat)) := rfl

theorem cellFaults_two (s : State) : cellFaults s 2 =
    rangeFaults (s.ip.toInt + (1 : Nat)) ++ rangeFaults (s.ip.toInt + (2 : Nat)) := rfl

theorem cellFaults_three (s : State) : cellFaults s 3 =
    rangeFaults (s.ip.toInt + (1 : Nat)) ++ (rangeFaults (s.ip.toInt + (2 : Nat)) ++
      rangeFaults (s.ip.toInt + (3 : Nat))) := rfl

/-- A resolution without a fault gives a non-negative address for a Position or Relative operand. -/
theorem operandAddress_nonneg {s : State} {m : Mode} {k : Nat} (hm : m ≠ .immediate)
    (h : firstFault (operandFaults s m k) = none) : 0 ≤ operandAddress s m k := by
  by_contra hlt
  exact operandFaults_ne_none hm (not_le.1 hlt) h

theorem writeFaults_none {m : Mode} (h : firstFault (writeFaults m) = none) : m ≠ .immediate := by
  rintro rfl; simp [writeFaults, firstFault] at h

/-- The addresses of the instruction's own cells are IP to IP + n. -/
theorem mem_instrCells {s : State} {n : Nat} {x : Int} :
    x ∈ instrCells s n ↔ ∃ k : Nat, k ≤ n ∧ x = s.ip.toInt + k := by
  simp only [instrCells, List.mem_map, List.mem_range, Nat.lt_succ_iff]
  exact ⟨fun ⟨k, hk, h⟩ => ⟨k, hk, h.symm⟩, fun ⟨k, hk, h⟩ => ⟨k, hk, h.symm⟩⟩

/-- A read operand touches its address, and none in Immediate mode. -/
theorem mem_operandTouched {s : State} {m : Mode} {k : Nat} {x : Int} :
    x ∈ operandTouched s m k ↔ m ≠ .immediate ∧ x = operandAddress s m k := by
  unfold operandTouched
  split <;> simp [*]

/-- The faults of format F3's resolution, in order. -/
def faultsF3 (s : State) (a b d : Mode) : List (Bool × FaultKind) :=
  writeFaults d ++ (cellFaults s 3 ++ (operandFaults s a 1 ++ (operandFaults s b 2 ++ operandFaults s d 3)))

/-- The faults of format F2's resolution, in order. -/
def faultsF2 (s : State) (a t : Mode) : List (Bool × FaultKind) :=
  cellFaults s 2 ++ (operandFaults s a 1 ++ operandFaults s t 2)

/-- The faults of format F1R's resolution, in order. -/
def faultsF1R (s : State) (a : Mode) : List (Bool × FaultKind) := cellFaults s 1 ++ operandFaults s a 1

/-- The faults of format F1W's resolution, in order. -/
def faultsF1W (s : State) (d : Mode) : List (Bool × FaultKind) :=
  writeFaults d ++ (cellFaults s 1 ++ operandFaults s d 1)

/-- Format F3 resolved: its first fault, or the two values, the address and all that was touched. -/
theorem resolveF3_eq {s : State} (h : 0 ≤ s.ip.toInt) (a b d : Mode) :
    resolveF3 s a b d = faultsOr (faultsF3 s a b d)
      ⟨operandValue s a 1, operandValue s b 2, (operandAddress s d 3).toNat,
        instrCells s 3 ++ operandTouched s a 1 ++ operandTouched s b 2 ++ [operandAddress s d 3]⟩ := by
  unfold resolveF3 faultsF3
  rw [checkWriteMode_eq]
  refine faultsOr_bind _ _ _ _ _ fun hd => ?_
  have hd := writeFaults_none hd
  rw [cellFaults_three, List.append_assoc, List.append_assoc, operandCell_eq h]
  refine faultsOr_bind _ _ _ _ _ fun _ => ?_
  rw [operandCell_eq h]
  refine faultsOr_bind _ _ _ _ _ fun _ => ?_
  rw [operandCell_eq h]
  refine faultsOr_bind _ _ _ _ _ fun _ => ?_
  rw [readOperand_eq]
  refine faultsOr_bind _ _ _ _ _ fun _ => ?_
  rw [readOperand_eq]
  refine faultsOr_bind _ _ _ _ _ fun _ => ?_
  rw [effectiveAddress_eq s hd, ← List.append_nil (operandFaults s d 3)]
  refine faultsOr_bind _ _ _ _ _ fun he => ?_
  rw [List.append_nil] at he
  rw [Int.toNat_of_nonneg (operandAddress_nonneg hd he)]
  rfl

/-- Format F2 resolved. -/
theorem resolveF2_eq {s : State} (h : 0 ≤ s.ip.toInt) (a t : Mode) :
    resolveF2 s a t = faultsOr (faultsF2 s a t)
      ⟨operandValue s a 1, operandValue s t 2,
        instrCells s 2 ++ operandTouched s a 1 ++ operandTouched s t 2⟩ := by
  unfold resolveF2 faultsF2
  rw [cellFaults_two, List.append_assoc, operandCell_eq h]
  refine faultsOr_bind _ _ _ _ _ fun _ => ?_
  rw [operandCell_eq h]
  refine faultsOr_bind _ _ _ _ _ fun _ => ?_
  rw [readOperand_eq]
  refine faultsOr_bind _ _ _ _ _ fun _ => ?_
  rw [readOperand_eq, ← List.append_nil (operandFaults s t 2)]
  exact faultsOr_bind _ _ _ _ _ fun _ => rfl

/-- Format F1R resolved. -/
theorem resolveF1R_eq {s : State} (h : 0 ≤ s.ip.toInt) (a : Mode) :
    resolveF1R s a = faultsOr (faultsF1R s a)
      ⟨operandValue s a 1, instrCells s 1 ++ operandTouched s a 1⟩ := by
  unfold resolveF1R faultsF1R
  rw [cellFaults_one, operandCell_eq h]
  refine faultsOr_bind _ _ _ _ _ fun _ => ?_
  rw [readOperand_eq, ← List.append_nil (operandFaults s a 1)]
  exact faultsOr_bind _ _ _ _ _ fun _ => rfl

/-- Format F1W resolved. -/
theorem resolveF1W_eq {s : State} (h : 0 ≤ s.ip.toInt) (d : Mode) :
    resolveF1W s d = faultsOr (faultsF1W s d)
      ⟨(operandAddress s d 1).toNat, instrCells s 1 ++ [operandAddress s d 1]⟩ := by
  unfold resolveF1W faultsF1W
  rw [checkWriteMode_eq]
  refine faultsOr_bind _ _ _ _ _ fun hd => ?_
  have hd := writeFaults_none hd
  rw [cellFaults_one, operandCell_eq h]
  refine faultsOr_bind _ _ _ _ _ fun _ => ?_
  rw [effectiveAddress_eq s hd, ← List.append_nil (operandFaults s d 1)]
  refine faultsOr_bind _ _ _ _ _ fun he => ?_
  rw [List.append_nil] at he
  rw [Int.toNat_of_nonneg (operandAddress_nonneg hd he)]
  rfl

end Sys2Proof.Machine
end

