-- ==== Sys2Proof/Laws/Exec.lean ====
section
/-! SUPPORT. Laws of execution: once and for all, everything an instruction and a step can do when they answer a
next state. Frames and invariants are case analyses of these. -/

namespace Sys2Proof.Machine

/-- Everything an instruction can do to a state (R127): raise a fault, or commit as its family commits, or suspend. -/
inductive Effect (s : State) : Instr → State → Prop where
  | fault (i : Instr) (k : FaultKind) (inRange : 0 ≤ s.ip.toInt → k ≠ .ipOutOfRange)
      (starved : k = .inputExhausted → s.mode = .oneShot) : Effect s i (takeFault k s)
  | store (mk : Mode → Mode → Mode → Instr) (a b d : Mode) (o : OperandsF3) (ip v : Word)
      (family : mk ∈ [Instr.add, Instr.mul, Instr.lt, Instr.eq]) (resolved : resolveF3 s a b d = .ok o)
      (next : nextIp s 4 = .ok ip) : Effect s (mk a b d) (commitStore s ip o.touched o.dst v)
  | input (d : Mode) (o : OperandsF1W) (ip x : Word) (rest : List Word) (queue : s.inq = x :: rest)
      (resolved : resolveF1W s d = .ok o) (next : nextIp s 2 = .ok ip) :
      Effect s (.input d) { commitStore s ip o.touched o.dst x with inq := rest }
  | starve (d : Mode) (queue : s.inq = []) (mode : s.mode = .cooperative) : Effect s (.input d) (suspend s)
  | output (a : Mode) (o : OperandsF1R) (ip : Word) (resolved : resolveF1R s a = .ok o)
      (next : nextIp s 2 = .ok ip) : Effect s (.output a) { commit s ip o.touched with out := s.out ++ [o.a] }
  | jump (mk : Mode → Mode → Instr) (a t : Mode) (o : OperandsF2) (ip : Word)
      (family : mk ∈ [Instr.jt, Instr.jf]) (resolved : resolveF2 s a t = .ok o) :
      Effect s (mk a t) (commit s ip o.touched)
  | arb (a : Mode) (o : OperandsF1R) (rb ip : Word) (resolved : resolveF1R s a = .ok o)
      (sum : narrow (s.rb.toInt + o.a.toInt) = .ok rb) (next : nextIp s 2 = .ok ip) :
      Effect s (.arb a) { commit s ip o.touched with rb := rb }
  | halt : Effect s .halt { s with runState := .halted }

/-- Range checks raise ArithmeticOverflow only. -/
theorem narrow_error {v : Int} {k : FaultKind} (h : narrow v = .error k) : k = .arithmeticOverflow := by
  unfold narrow at h
  split at h <;> cases h
  rfl

theorem operandCell_error {s : State} {n : Nat} {k : FaultKind} (h : operandCell s n = .error k) :
    k ≠ .inputExhausted ∧ (0 ≤ s.ip.toInt → k ≠ .ipOutOfRange) := by
  unfold operandCell cellAt at h
  split at h
  · cases h; exact ⟨by decide, fun h0 => absurd h0 (by omega)⟩
  · split at h <;> cases h
    exact ⟨by decide, fun _ => by decide⟩

theorem effectiveAddress_error {s : State} {m : Mode} {r : Word} {k : FaultKind}
    (h : effectiveAddress s m r = .error k) : k ≠ .inputExhausted ∧ k ≠ .ipOutOfRange := by
  unfold effectiveAddress checkAddress at h
  split at h
  · split at h <;> cases h
    decide
  · cases h; decide

theorem readOperand_error {s : State} {m : Mode} {r : Word} {k : FaultKind}
    (h : readOperand s m r = .error k) : k ≠ .inputExhausted ∧ k ≠ .ipOutOfRange := by
  cases m with
  | immediate => cases h
  | position =>
    rcases bind_eq_error h with h | ⟨a, -, h⟩
    · exact effectiveAddress_error h
    · cases h
  | relative =>
    rcases bind_eq_error h with h | ⟨a, -, h⟩
    · exact effectiveAddress_error h
    · cases h

theorem checkWriteMode_error {m : Mode} {k : FaultKind} (h : checkWriteMode m = .error k) :
    k = .invalidWriteTarget := by
  cases m <;> cases h; rfl

/-- No resolution raises InputExhausted, and none raises IPOutOfRange from an IP at which a cell exists. -/
theorem resolveF3_error {s : State} {a b d : Mode} {k : FaultKind} (h : resolveF3 s a b d = .error k) :
    k ≠ .inputExhausted ∧ (0 ≤ s.ip.toInt → k ≠ .ipOutOfRange) := by
  rcases bind_eq_error h with h | ⟨_, -, h⟩
  · rw [checkWriteMode_error h]; exact ⟨by decide, fun _ => by decide⟩
  rcases bind_eq_error h with h | ⟨_, -, h⟩
  · exact operandCell_error h
  rcases bind_eq_error h with h | ⟨_, -, h⟩
  · exact operandCell_error h
  rcases bind_eq_error h with h | ⟨_, -, h⟩
  · exact operandCell_error h
  rcases bind_eq_error h with h | ⟨_, -, h⟩
  · exact (readOperand_error h).imp_right fun h _ => h
  rcases bind_eq_error h with h | ⟨_, -, h⟩
  · exact (readOperand_error h).imp_right fun h _ => h
  rcases bind_eq_error h with h | ⟨_, -, h⟩
  · exact (effectiveAddress_error h).imp_right fun h _ => h
  · cases h

theorem resolveF2_error {s : State} {a t : Mode} {k : FaultKind} (h : resolveF2 s a t = .error k) :
    k ≠ .inputExhausted ∧ (0 ≤ s.ip.toInt → k ≠ .ipOutOfRange) := by
  rcases bind_eq_error h with h | ⟨_, -, h⟩
  · exact operandCell_error h
  rcases bind_eq_error h with h | ⟨_, -, h⟩
  · exact operandCell_error h
  rcases bind_eq_error h with h | ⟨_, -, h⟩
  · exact (readOperand_error h).imp_right fun h _ => h
  rcases bind_eq_error h with h | ⟨_, -, h⟩
  · exact (readOperand_error h).imp_right fun h _ => h
  · cases h

theorem resolveF1R_error {s : State} {a : Mode} {k : FaultKind} (h : resolveF1R s a = .error k) :
    k ≠ .inputExhausted ∧ (0 ≤ s.ip.toInt → k ≠ .ipOutOfRange) := by
  rcases bind_eq_error h with h | ⟨_, -, h⟩
  · exact operandCell_error h
  rcases bind_eq_error h with h | ⟨_, -, h⟩
  · exact (readOperand_error h).imp_right fun h _ => h
  · cases h

theorem resolveF1W_error {s : State} {d : Mode} {k : FaultKind} (h : resolveF1W s d = .error k) :
    k ≠ .inputExhausted ∧ (0 ≤ s.ip.toInt → k ≠ .ipOutOfRange) := by
  rcases bind_eq_error h with h | ⟨_, -, h⟩
  · rw [checkWriteMode_error h]; exact ⟨by decide, fun _ => by decide⟩
  rcases bind_eq_error h with h | ⟨_, -, h⟩
  · exact operandCell_error h
  rcases bind_eq_error h with h | ⟨_, -, h⟩
  · exact (effectiveAddress_error h).imp_right fun h _ => h
  · cases h

theorem Effect.ofError {s : State} (i : Instr) {k : FaultKind}
    (h : k ≠ .inputExhausted ∧ (0 ≤ s.ip.toInt → k ≠ .ipOutOfRange)) : Effect s i (takeFault k s) :=
  .fault i k h.2 fun hk => absurd hk h.1

theorem Effect.ofOverflow {s : State} (i : Instr) {v : Int} {k : FaultKind} (h : narrow v = .error k) :
    Effect s i (takeFault k s) := by
  rw [narrow_error h]; exact .ofError i ⟨by decide, fun _ => by decide⟩

/-- The instructions of format F3 that compute a range-checked result (ADD, MUL). -/
theorem effect_checked {s t : State} {mk : Mode → Mode → Mode → Instr} {a b d : Mode}
    (family : mk ∈ [Instr.add, Instr.mul, Instr.lt, Instr.eq]) {f : OperandsF3 → Except FaultKind Word}
    (hf : ∀ o k, f o = .error k → k = .arithmeticOverflow)
    (h : complete s (do
      let o ← resolveF3 s a b d
      let v ← f o
      let ip ← nextIp s 4
      .ok (commitStore s ip o.touched o.dst v)) = .next t) : Effect s (mk a b d) t := by
  replace h := complete_eq_next h
  rcases h with h | ⟨k, h, rfl⟩
  · obtain ⟨o, ho, h⟩ := bind_eq_ok h
    obtain ⟨v, -, h⟩ := bind_eq_ok h
    obtain ⟨ip, hip, h⟩ := bind_eq_ok h
    cases h
    exact .store mk a b d o ip v family ho hip
  · rcases bind_eq_error h with h | ⟨o, -, h⟩
    · exact .ofError _ (resolveF3_error h)
    rcases bind_eq_error h with h | ⟨v, -, h⟩
    · rw [hf o k h]; exact .ofError _ ⟨by decide, fun _ => by decide⟩
    rcases bind_eq_error h with h | ⟨ip, -, h⟩
    · exact .ofOverflow _ h
    · cases h

/-- Everything an instruction can do when it answers a next state. -/
theorem exec_effect {i : Instr} {s t : State} (h : exec i s = .next t) : Effect s i t := by
  cases i with
  | add a b d => exact effect_checked (by simp) (fun _ _ h => narrow_error h) h
  | mul a b d => exact effect_checked (by simp) (fun _ _ h => narrow_error h) h
  | lt a b d =>
    exact effect_checked (f := fun o => .ok (truthValue (isLess o.a o.b))) (by simp) (fun _ _ h => by cases h) h
  | eq a b d =>
    exact effect_checked (f := fun o => .ok (truthValue (isEqual o.a o.b))) (by simp) (fun _ _ h => by cases h) h
  | input d =>
    replace h := complete_eq_next h
    rcases h with h | ⟨k, h, rfl⟩
    · obtain ⟨o, ho, h⟩ := bind_eq_ok h
      obtain ⟨ip, hip, h⟩ := bind_eq_ok h
      unfold takeInput at h
      split at h
      · rename_i hq
        unfold starved at h
        split at h <;> cases h
        exact .starve d hq ‹_›
      · cases h
        exact .input d o ip _ _ ‹_› ho hip
    · rcases bind_eq_error h with h | ⟨o, -, h⟩
      · exact .ofError _ (resolveF1W_error h)
      rcases bind_eq_error h with h | ⟨ip, -, h⟩
      · exact .ofOverflow _ h
      unfold takeInput at h
      split at h
      · unfold starved at h
        split at h <;> cases h
        exact .fault _ _ (fun _ => by decide) fun _ => ‹_›
      · cases h
  | output a =>
    replace h := complete_eq_next h
    rcases h with h | ⟨k, h, rfl⟩
    · obtain ⟨o, ho, h⟩ := bind_eq_ok h
      obtain ⟨ip, hip, h⟩ := bind_eq_ok h
      cases h
      exact .output a o ip ho hip
    · rcases bind_eq_error h with h | ⟨o, -, h⟩
      · exact .ofError _ (resolveF1R_error h)
      rcases bind_eq_error h with h | ⟨ip, -, h⟩
      · exact .ofOverflow _ h
      · cases h
  | jt a b =>
    replace h := complete_eq_next h
    rcases h with h | ⟨k, h, rfl⟩
    · obtain ⟨o, ho, h⟩ := bind_eq_ok h
      obtain ⟨ip, -, h⟩ := bind_eq_ok h
      cases h
      exact .jump Instr.jt a b o ip (by simp) ho
    · rcases bind_eq_error h with h | ⟨o, -, h⟩
      · exact .ofError _ (resolveF2_error h)
      rcases bind_eq_error h with h | ⟨ip, -, h⟩
      · unfold jumpIp at h
        split at h
        · cases h
        · exact .ofOverflow _ h
      · cases h
  | jf a b =>
    replace h := complete_eq_next h
    rcases h with h | ⟨k, h, rfl⟩
    · obtain ⟨o, ho, h⟩ := bind_eq_ok h
      obtain ⟨ip, -, h⟩ := bind_eq_ok h
      cases h
      exact .jump Instr.jf a b o ip (by simp) ho
    · rcases bind_eq_error h with h | ⟨o, -, h⟩
      · exact .ofError _ (resolveF2_error h)
      rcases bind_eq_error h with h | ⟨ip, -, h⟩
      · unfold jumpIp at h
        split at h
        · cases h
        · exact .ofOverflow _ h
      · cases h
  | arb a =>
    replace h := complete_eq_next h
    rcases h with h | ⟨k, h, rfl⟩
    · obtain ⟨o, ho, h⟩ := bind_eq_ok h
      obtain ⟨rb, hrb, h⟩ := bind_eq_ok h
      obtain ⟨ip, hip, h⟩ := bind_eq_ok h
      cases h
      exact .arb a o rb ip ho hrb hip
    · rcases bind_eq_error h with h | ⟨o, -, h⟩
      · exact .ofError _ (resolveF1R_error h)
      rcases bind_eq_error h with h | ⟨rb, -, h⟩
      · exact .ofOverflow _ h
      rcases bind_eq_error h with h | ⟨ip, -, h⟩
      · exact .ofOverflow _ h
      · cases h
  | halt => cases h; exact .halt

/-- An instruction always answers a next state (R127). -/
theorem exec_next (i : Instr) (s : State) : ∃ t, exec i s = .next t := by
  cases i <;> first | exact complete_next s _ | exact ⟨_, rfl⟩

/-- Everything a step can do when it answers a next state (R110): it was enabled, and it ended in the fetch fault, in
a decode fault, or in the decoded instruction. -/
theorem step_eq_next {s t : State} (h : step s = .next t) : s.runState = .running ∧
    ((¬ s.ipInRange ∧ t = takeFault .ipOutOfRange s) ∨
     (s.ipInRange ∧ ∃ e, decode s.instrWord = .error e ∧ t = takeFault (decodeFault e) s) ∨
     (s.ipInRange ∧ ∃ i, decode s.instrWord = .ok i ∧ exec i s = .next t)) := by
  unfold step at h
  split at h
  · refine ⟨‹_›, ?_⟩
    unfold fetchWord at h
    by_cases hr : s.ipInRange
    · rw [if_pos hr] at h
      dsimp only at h
      split at h
      · cases h; exact .inr (.inl ⟨hr, _, ‹_›, rfl⟩)
      · exact .inr (.inr ⟨hr, _, ‹_›, h⟩)
    · rw [if_neg hr] at h
      cases h; exact .inl ⟨hr, rfl⟩
  all_goals (rename_i hs; simp [notEnabled, hs] at h)

/-- The instruction word while IP is in range is MEM[IP]. -/
theorem instrWord_of_nonneg {s : State} (h : 0 ≤ s.ip.toInt) : s.instrWord = s.mem.read s.ip.toInt.toNat :=
  if_neg (by omega)

/-! ## Runs -/

theorem run_zero (s : State) : Host.Core.run Sys2Proof.core 0 s = .next s := by simp [Host.Core.run]

/-- A run of n + 1 steps whose first step answers t is a run of n steps from t. -/
theorem run_succ {s t : State} (h : step s = .next t) (n : Nat) :
    Host.Core.run Sys2Proof.core (n + 1) s = Host.Core.run Sys2Proof.core n t := by
  have key : ∀ (M : Host.Core) (u v : M.State), M.step u = .next v → M.run (n + 1) u = M.run n v := by
    intro M u v hv
    simp only [Host.Core.run, hv]
  exact key Sys2Proof.core s t h

end Sys2Proof.Machine
end

