-- ==== Sys2Proof/Laws/PerInstr.lean ====
section
/-! SUPPORT. Laws made per instruction: the fields of the instruction word, and that they agree with the
instruction's width. -/

namespace Sys2Proof.Laws.EncodedWord

/-- The word of an instruction has at most five digits, the two low ones are its opcode number, the others its mode
digits (R81), and it has one operand cell for each mode (R80). -/
def Statement (i : Instr) : Prop :=
  encodeNat i < 100000 ∧ encodeNat i % 100 = i.opcode.number ∧ encodeNat i / 100 = modeDigits i.modes ∧
    i.width = 1 + i.modes.length

theorem add (a b dst : Mode) : Statement (.add a b dst) := by
  cases a <;> cases b <;> cases dst <;> simp only [Statement] <;> decide

theorem mul (a b dst : Mode) : Statement (.mul a b dst) := by
  cases a <;> cases b <;> cases dst <;> simp only [Statement] <;> decide

theorem input (dst : Mode) : Statement (.input dst) := by
  cases dst <;> simp only [Statement] <;> decide

theorem output (a : Mode) : Statement (.output a) := by
  cases a <;> simp only [Statement] <;> decide

theorem jt (a target : Mode) : Statement (.jt a target) := by
  cases a <;> cases target <;> simp only [Statement] <;> decide

theorem jf (a target : Mode) : Statement (.jf a target) := by
  cases a <;> cases target <;> simp only [Statement] <;> decide

theorem lt (a b dst : Mode) : Statement (.lt a b dst) := by
  cases a <;> cases b <;> cases dst <;> simp only [Statement] <;> decide

theorem eq (a b dst : Mode) : Statement (.eq a b dst) := by
  cases a <;> cases b <;> cases dst <;> simp only [Statement] <;> decide

theorem arb (a : Mode) : Statement (.arb a) := by
  cases a <;> simp only [Statement] <;> decide

theorem halt : Statement .halt := by
  simp only [Statement]; decide

end Sys2Proof.Laws.EncodedWord
end

