-- ==== Sys2Proof/Tests/Slice0.lean ====
section
/-! SUPPORT. Tests: the well-formedness smoke, words written out from 30_encoding.md, single steps of the vectors
of 95_test_vectors.md (their ids stand in the comments), and for each statement of Obligations.lean that has
hypotheses a witness that meets them. -/

namespace Sys2Proof.Tests

open Sys2Proof Sys2Proof.Machine

/-! ## Helpers -/

/-- The state after START(image, mode, q0). -/
def boot (image : List Int) (mode : RunMode := .oneShot) (q0 : List Int := []) : State :=
  startState (image.map Word.ofInt) mode (q0.map Word.ofInt)

/-- Whether an outcome is a next state of which P holds. -/
def after (o : Host.Outcome State Fault Refusal) (P : State → Bool) : Bool :=
  match o with
  | .next t => P t
  | .fault _ => false
  | .refused _ => false

theorem exists_next {o : Host.Outcome State Fault Refusal} {P : State → Bool} (h : after o P = true) :
    ∃ t, o = .next t ∧ P t = true := by
  cases o with
  | next t => exact ⟨t, rfl, h⟩
  | fault _ => cases h
  | refused _ => cases h

/-- The fault report of a state: FAULT_KIND, FAULT_IP, FAULT_INSN, and STATE = Faulted. -/
def faultedAt (t : State) (k : FaultKind) (ip insn : Int) : Bool :=
  decide (t.runState = .faulted ∧ t.faultKind = some k ∧ t.faultIp.toInt = ip ∧ t.faultInsn.toInt = insn)

/-- The largest value, and the least. -/
abbrev imax : Int := Config.intMax
abbrev imin : Int := Config.intMin

/-! ## WellFormed: an ill-formed term for each instruction with a write operand -/

theorem test_ill_formed_add : (Instr.add .position .relative .immediate).wellFormed = false := by decide
theorem test_ill_formed_mul : (Instr.mul .immediate .immediate .immediate).wellFormed = false := by decide
theorem test_ill_formed_input : (Instr.input .immediate).wellFormed = false := by decide
theorem test_ill_formed_lt : (Instr.lt .position .position .immediate).wellFormed = false := by decide
theorem test_ill_formed_eq : (Instr.eq .relative .position .immediate).wellFormed = false := by decide
theorem test_well_formed : (Instr.add .immediate .immediate .relative).wellFormed = true ∧
    (Instr.output .immediate).wellFormed = true ∧ (Instr.jt .immediate .immediate).wellFormed = true := by decide

/-! ## Decode: words from R81 to R92 and section 2.8 of the vectors -/

/-- `CBAoo`: C = 2, B = 0, A = 1, oo = 01. -/
theorem test_decode_add : decode (20101 : Word) = .ok (.add .immediate .position .relative) := by decide
/-- R82's word, 1002: C = 0, B = 1, A = 0, oo = 02. -/
theorem test_decode_mul : decode (1002 : Word) = .ok (.mul .position .immediate .position) := by decide
theorem test_decode_input : decode (3 : Word) = .ok (.input .position) ∧
    decode (203 : Word) = .ok (.input .relative) := by decide
theorem test_decode_output : decode (204 : Word) = .ok (.output .relative) := by decide
theorem test_decode_jt : decode (2105 : Word) = .ok (.jt .immediate .relative) := by decide
theorem test_decode_jf : decode (1206 : Word) = .ok (.jf .relative .immediate) := by decide
theorem test_decode_lt : decode (21007 : Word) = .ok (.lt .position .immediate .relative) := by decide
theorem test_decode_eq : decode (2108 : Word) = .ok (.eq .immediate .relative .position) := by decide
theorem test_decode_arb : decode (109 : Word) = .ok (.arb .immediate) := by decide
theorem test_decode_halt : decode (99 : Word) = .ok .halt := by decide

/-- F01 to F07: class 1 and 2 of R92. -/
theorem test_decode_invalid_opcode :
    ([0, 10, -1, 100, 98, -99, 11113, imin].map fun w => decode (Word.ofInt w)) =
      List.replicate 8 (.error .invalidOpcode) := by decide
/-- F10 to F16, G3, G10: class 3 of R92, before class 4. -/
theorem test_decode_invalid_mode :
    ([301, 10099, 1003, 100001, 199, 904, 30001, 10401, 10003].map fun w => decode (Word.ofInt w)) =
      List.replicate 9 (.error .invalidMode) := by decide
/-- F20 to F25: class 4 of R92. -/
theorem test_decode_invalid_write_target :
    ([10001, 11101, 103, 10002, 10007, 10008].map fun w => decode (Word.ofInt w)) =
      List.replicate 6 (.error .invalidWriteTarget) := by decide

theorem test_table_word : decodeTableWord 64 22202 = some (.mul .relative .relative .relative) ∧
    decodeTableWord 256 (5 * 2 ^ 64 + 104) = some (.output .immediate) ∧ decodeTableWord 64 103 = none := by decide

/-- The first lines of program P2 in the assembly notation (R96). -/
theorem test_assemble : assemble [.arb ⟨.immediate, 100⟩, .input ⟨.relative, 5⟩,
    .mul ⟨.relative, 5⟩ ⟨.relative, 5⟩ ⟨.relative, 6⟩, .data [0, -1], .halt] =
      [109, 100, 203, 5, 22202, 5, 5, 6, 0, -1, 99] := by decide

/-! ## Single steps -/

/-- MI4, step 2: `ADD #20, #22, [RB+0]` with RB = 7. -/
theorem test_add_relative_destination :
    after (step { boot [109, 7, 21101, 20, 22, 0, 99, 0] with ip := 2, rb := 7 }) (fun t =>
      decide (t.mem.read 7 = 42 ∧ t.ip = 6 ∧ t.mlen = 8)) = true := by decide
/-- F51: INT_MAX + 1. -/
theorem test_add_overflow :
    after (step (boot [1101, imax, 1, 0, 99])) (fun t => faultedAt t .arithmeticOverflow 0 1101) = true := by decide
/-- S2, step 1. -/
theorem test_mul_immediate :
    after (step (boot [1002, 4, 3, 4, 33])) (fun t =>
      decide (t.mem = [(0, 1002), (1, 4), (2, 3), (3, 4), (4, 99)] ∧ t.ip = 4)) = true := by decide
/-- F53: INT_MIN * -1. -/
theorem test_mul_overflow :
    after (step (boot [1102, imin, -1, 0, 99])) (fun t => faultedAt t .arithmeticOverflow 0 1102) = true := by decide
/-- I2, step 2: `IN [RB+3]` with RB = 4. -/
theorem test_input_relative :
    after (step { boot [109, 4, 203, 3, 204, 3, 99, 0] .oneShot [12, 13] with ip := 2, rb := 4 }) (fun t =>
      decide (t.mem.read 7 = 12 ∧ t.inq = [13] ∧ t.ip = 4)) = true := by decide
/-- G2: the destination's check comes before the queue's. -/
theorem test_input_checks_destination_first :
    after (step (boot [3, -1, 99] .cooperative)) (fun t => faultedAt t .negativeAddress 0 3) = true := by decide
/-- O3, step 2: `OUT [RB-1]` with RB = 1. -/
theorem test_output_relative :
    after (step { boot [109, 1, 204, -1, 99] with ip := 2, rb := 1 }) (fun t =>
      decide (t.out = [109] ∧ t.ip = 4)) = true := by decide
/-- O4: a read grows memory. -/
theorem test_output_grows_memory :
    after (step (boot [4, 100, 99])) (fun t => decide (t.out = [0] ∧ t.mlen = 101 ∧ t.ip = 2)) = true := by decide
/-- J6, step 2: `JT [RB-2], [RB-1]` with RB = 11. -/
theorem test_jt_relative :
    after (step { boot [109, 11, 2205, -2, -1, 99, 104, 9, 99, 1, 6] with ip := 2, rb := 11 }) (fun t =>
      decide (t.ip = 6 ∧ t.mlen = 11)) = true := by decide
/-- F35: a jump not taken faults on its target operand. -/
theorem test_jt_resolves_unused_target :
    after (step (boot [105, 0, -1, 99])) (fun t => faultedAt t .negativeAddress 0 105) = true := by decide
/-- J4: -3 is true. -/
theorem test_jf_not_taken :
    after (step (boot [1106, -3, 4, 99, 104, 2, 99])) (fun t => decide (t.ip = 3)) = true := by decide
/-- J8: `JF [7], [8]`, taken. -/
theorem test_jf_taken :
    after (step (boot [6, 7, 8, 99, 104, 3, 99, 0, 4])) (fun t => decide (t.ip = 4)) = true := by decide
/-- L4: the comparison is signed and forms no difference. -/
theorem test_lt_extremes :
    after (step (boot [1107, imax, imin, 5, 99, 7])) (fun t => decide (t.mem.read 5 = 0 ∧ t.ip = 4)) = true := by
  decide
/-- L1. -/
theorem test_lt_negative :
    after (step (boot [1107, -1, 0, 0, 99])) (fun t => decide (t.mem.read 0 = 1)) = true := by decide
/-- E4. -/
theorem test_eq_least :
    after (step (boot [1108, imin, imin, 5, 99, 3])) (fun t => decide (t.mem.read 5 = 1)) = true := by decide
/-- E5: `EQ #8, [0], [0]`; the 0 stored is not listed. -/
theorem test_eq_stores_zero :
    after (step (boot [108, 8, 0, 0, 99])) (fun t => decide (t.mem = [(1, 8), (4, 99)] ∧ t.mlen = 5)) = true := by
  decide
/-- B3, step 2: the operand is resolved with the old RB. -/
theorem test_arb_old_base :
    after (step { boot [109, 2, 209, 1, 99] with ip := 2, rb := 2 }) (fun t =>
      decide (t.rb = 3 ∧ t.ip = 4)) = true := by decide
/-- F54, step 2. -/
theorem test_arb_overflow :
    after (step { boot [109, imax, 109, 1, 99] with ip := 2, rb := Word.ofInt imax }) (fun t =>
      faultedAt t .arithmeticOverflow 2 109 && decide (t.rb.toInt = imax)) = true := by decide
/-- S6. -/
theorem test_halt :
    after (step (boot [99, 5, 6])) (fun t =>
      decide (t = { boot [99, 5, 6] with runState := .halted })) = true := by decide

/-- F56, step 2: the largest address is readable, and MLEN becomes ADDR_MAX + 1. -/
theorem test_largest_address :
    after (step { boot [109, imax, 204, 0, 99] with ip := 2, rb := Word.ofInt imax }) (fun t =>
      decide (t.out = [0] ∧ t.mlen = 9223372036854775808)) = true := by decide
/-- F41, step 2, and F43: the fetch check. -/
theorem test_fetch_check :
    after (step { boot [1105, 1, -7] with ip := -7 }) (fun t => faultedAt t .ipOutOfRange (-7) 0) = true ∧
    after (step (boot [])) (fun t => faultedAt t .ipOutOfRange 0 0) = true := by decide

/-- A table word placed for the next step runs, from reset. -/
theorem test_with_fetch_word :
    after (step (State.reset.withFetchWord 64 1101)) (fun t => decide (t.ip = 4 ∧ t.runState = .running)) = true ∧
    after (step (State.reset.withFetchWord 128 (9 * 2 ^ 64 + 104))) (fun t => decide (t.out = [9])) = true ∧
    after (step (State.reset.withFetchWord 64 99)) (fun t => decide (t.runState = .halted)) = true := by decide

/-! ## Witnesses: for each statement, states and operands that meet its hypotheses -/

/-- A state whose IP is near the end of the range, every cell 0: operand cells up to IP + n exist when IP + n is at
most INT_MAX. -/
def nearEnd (ip : Int) : State := { boot [] with ip := Word.ofInt ip, mlen := 9223372036854775808 }

/-- The fault conditions of LT and EQ, and of ADD and MUL with result v, in their order. -/
def faultsF3 (s : State) (a b d : Mode) (v : Int) : Option FaultKind :=
  firstFault (writeFaults d ++ cellFaults s 3 ++ operandFaults s a 1 ++ operandFaults s b 2 ++ operandFaults s d 3 ++
    rangeFaults v ++ rangeFaults (s.ip.toInt + 4))
def faultsCompare (s : State) (a b d : Mode) : Option FaultKind :=
  firstFault (writeFaults d ++ cellFaults s 3 ++ operandFaults s a 1 ++ operandFaults s b 2 ++ operandFaults s d 3 ++
    rangeFaults (s.ip.toInt + 4))
/-- Of IN. -/
def faultsIn (s : State) (d : Mode) : Option FaultKind :=
  firstFault (writeFaults d ++ cellFaults s 1 ++ operandFaults s d 1 ++ rangeFaults (s.ip.toInt + 2) ++
    [(decide (s.inq = [] ∧ s.mode = .oneShot), FaultKind.inputExhausted)])
/-- Of OUT, and of ARB with sum v. -/
def faultsOut (s : State) (a : Mode) : Option FaultKind :=
  firstFault (cellFaults s 1 ++ operandFaults s a 1 ++ rangeFaults (s.ip.toInt + 2))
def faultsArb (s : State) (a : Mode) (v : Int) : Option FaultKind :=
  firstFault (cellFaults s 1 ++ operandFaults s a 1 ++ rangeFaults v ++ rangeFaults (s.ip.toInt + 2))
/-- Of JT and JF. -/
def faultsJump (s : State) (a t : Mode) (taken : Bool) : Option FaultKind :=
  firstFault (cellFaults s 2 ++ operandFaults s a 1 ++ operandFaults s t 2 ++
    (if taken then [] else rangeFaults (s.ip.toInt + 3)))

theorem test_witness_DecodeIffEncode : decode (22201 : Word) = .ok (.add .relative .relative .relative) ∧
    (Instr.add .relative .relative .relative).wellFormed = true ∧
    encode (.add .relative .relative .relative) = 22201 := by decide

/-- Each clause at a boundary: -1; 0 and 10; a mode digit 3 and one surplus digit; M = 1 in the write operand's
place; the least legal word and the greatest. -/
theorem test_witness_EveryWordIsClassified :
    (-1 : Word).toInt < 0 ∧ (0 : Word).toInt = (0 : Nat) ∧ 0 % 100 ∉ [1, 2, 3, 4, 5, 6, 7, 8, 9, 99] ∧
    10 % 100 ∉ [1, 2, 3, 4, 5, 6, 7, 8, 9, 99] ∧
    (301 : Word).toInt = (301 : Nat) ∧ 301 % 100 = 1 ∧ 2 < digit 301 2 ∧
    (199 : Word).toInt = (199 : Nat) ∧ 199 % 100 = 99 ∧ 199 / 10 ^ (Opcode.halt.arity + 2) ≠ 0 ∧
    (103 : Word).toInt = (103 : Nat) ∧ digit 103 2 = 1 ∧ 103 / 10 ^ (Opcode.input.arity + 2) = 0 ∧
    (12201 : Word).toInt = (12201 : Nat) ∧ digit 12201 4 = 1 ∧ 12201 / 10 ^ (Opcode.add.arity + 2) = 0 ∧
    (1 : Word).toInt = (1 : Nat) ∧ 1 % 100 = 1 ∧
    (22208 : Word).toInt = (22208 : Nat) ∧ 22208 % 100 = 8 ∧ 22208 / 10 ^ (Opcode.eq.arity + 2) = 0 := by decide

theorem test_witness_StepAnswersIffRunning : (boot [99]).runState = .running ∧
    { boot [99] with runState := .halted }.runState ≠ .running := by decide

theorem test_witness_StepRunsTheDecodedInstruction : (boot [1101, 1, 1, 0, 99]).runState = .running ∧
    0 ≤ (boot [1101, 1, 1, 0, 99]).ip.toInt ∧ (boot [1101, 1, 1, 0, 99]).ip.toInt < (boot [1101, 1, 1, 0, 99]).mlen ∧
    decode ((boot [1101, 1, 1, 0, 99]).mem.read 0) = .ok (.add .immediate .immediate .position) := by decide

/-- IP = -1, and IP = MLEN. -/
theorem test_witness_FetchOutsideMemoryFaults :
    { boot [99] with ip := -1 }.runState = .running ∧ { boot [99] with ip := -1 }.ip.toInt < 0 ∧
    { boot [99] with ip := 1 }.runState = .running ∧
    ({ boot [99] with ip := 1 }.mlen : Int) ≤ { boot [99] with ip := 1 }.ip.toInt := by decide

/-- One word of each class, in the last cell of memory. -/
theorem test_witness_IllegalWordFaults :
    ([0, 199, 103].map fun w => (boot [w]).runState) = List.replicate 3 .running ∧
    ([0, 199, 103].map fun w => decide (0 ≤ (boot [w]).ip.toInt ∧ (boot [w]).ip.toInt < (boot [w]).mlen)) =
      [true, true, true] ∧
    ([0, 199, 103].map fun w => decode ((boot [w]).mem.read 0)) =
      [.error .invalidOpcode, .error .invalidMode, .error .invalidWriteTarget] := by decide

theorem test_witness_UnknownOpcodeFaults : (boot [10098]).runState = .running ∧ 0 ≤ (boot [10098]).ip.toInt ∧
    (boot [10098]).ip.toInt < (boot [10098]).mlen ∧ 0 ≤ ((boot [10098]).mem.read 0).toInt ∧
    ((boot [10098]).mem.read 0).toInt % 100 ∉ ([1, 2, 3, 4, 5, 6, 7, 8, 9, 99] : List Int) := by decide

/-- IPOutOfRange, and another fault. -/
theorem test_witness_FaultingStepWritesOnlyTheRecord :
    (∃ t, step (boot []) = .next t ∧ decide (t.runState = .faulted) = true) ∧
    (∃ t, step (boot [4, -1, 99]) = .next t ∧ decide (t.runState = .faulted) = true) :=
  ⟨exists_next (by decide), exists_next (by decide)⟩

/-- Every event, and every outcome of a step. -/
theorem test_witness_StateTransitionTable :
    (∃ t, act (.host (.start [99] .cooperative [])) (boot []) = .next t ∧ true = true) ∧
    (∃ t, act (.host .resume) { boot [99] with runState := .awaitingInput } = .next t ∧ true = true) ∧
    (∃ t, act (.host (.enqueue imax)) (boot [99] .cooperative) = .next t ∧ true = true) ∧
    (∃ t, act (.host .observe) (boot [99]) = .next t ∧ true = true) ∧
    (∃ t, act (.host .readMemory) { boot [99] with runState := .halted } = .next t ∧ true = true) ∧
    (∃ t, act .step (boot [104, 1, 99]) = .next t ∧ decide (t.runState = .running) = true) ∧
    (∃ t, act .step (boot [3, 0, 99] .cooperative [1]) = .next t ∧ decide (t.runState = .running) = true) ∧
    (∃ t, act .step (boot [99]) = .next t ∧ decide (t.runState = .halted) = true) ∧
    (∃ t, act .step (boot [3, 0, 99]) = .next t ∧ decide (t.runState = .faulted) = true) ∧
    (∃ t, act .step (boot [3, 0, 99] .cooperative) = .next t ∧ decide (t.runState = .awaitingInput) = true) :=
  ⟨exists_next (P := fun _ => true) (by decide), exists_next (P := fun _ => true) (by decide),
   exists_next (P := fun _ => true) (by decide), exists_next (P := fun _ => true) (by decide),
   exists_next (P := fun _ => true) (by decide), exists_next (by decide), exists_next (by decide),
   exists_next (by decide), exists_next (by decide), exists_next (by decide)⟩

/-- F61. -/
theorem test_witness_SuspensionIsUndoneByResume :
    ∃ t, step (boot [3, 0, 99] .cooperative) = .next t ∧ decide (t.runState = .awaitingInput) = true :=
  exists_next (by decide)

theorem test_witness_PositionOperand : (-1 : Word).toInt < 0 ∧ 0 ≤ (0 : Word).toInt := by decide

/-- r + RB = INT_MAX + 1, INT_MIN - 1; -1, INT_MIN; 0, INT_MAX. -/
theorem test_witness_RelativeOperand :
    ¬ fits ((1 : Word).toInt + (Word.ofInt imax).toInt) ∧ ¬ fits ((-1 : Word).toInt + (Word.ofInt imin).toInt) ∧
    (fits ((-3 : Word).toInt + (2 : Word).toInt) ∧ (-3 : Word).toInt + (2 : Word).toInt < 0) ∧
    (fits ((0 : Word).toInt + (Word.ofInt imin).toInt) ∧ (0 : Word).toInt + (Word.ofInt imin).toInt < 0) ∧
    (fits ((-2 : Word).toInt + (2 : Word).toInt) ∧ 0 ≤ (-2 : Word).toInt + (2 : Word).toInt) ∧
    (fits ((0 : Word).toInt + (Word.ofInt imax).toInt) ∧ 0 ≤ (0 : Word).toInt + (Word.ofInt imax).toInt) := by decide

/-- Completion with IP + 4 = INT_MAX; the fault with IP + 4 = INT_MAX + 1. -/
theorem test_witness_AddRule : 0 ≤ (nearEnd (imax - 4)).ip.toInt ∧ 0 ≤ (nearEnd (imax - 3)).ip.toInt ∧
    faultsF3 (nearEnd (imax - 4)) .position .immediate .relative
      ((operandValue (nearEnd (imax - 4)) .position 1).toInt +
        (operandValue (nearEnd (imax - 4)) .immediate 2).toInt) = none ∧
    faultsF3 (nearEnd (imax - 3)) .position .immediate .relative
      ((operandValue (nearEnd (imax - 3)) .position 1).toInt +
        (operandValue (nearEnd (imax - 3)) .immediate 2).toInt) = some .arithmeticOverflow := by decide

/-- A product of INT_MIN completes; INT_MIN * -1 does not (A9, F53). -/
theorem test_witness_MulRule : 0 ≤ (boot [1102, imin, 1, 0, 99]).ip.toInt ∧
    0 ≤ (boot [1102, imin, -1, 0, 99]).ip.toInt ∧
    faultsF3 (boot [1102, imin, 1, 0, 99]) .immediate .immediate .position
      ((operandValue (boot [1102, imin, 1, 0, 99]) .immediate 1).toInt *
        (operandValue (boot [1102, imin, 1, 0, 99]) .immediate 2).toInt) = none ∧
    faultsF3 (boot [1102, imin, -1, 0, 99]) .immediate .immediate .position
      ((operandValue (boot [1102, imin, -1, 0, 99]) .immediate 1).toInt *
        (operandValue (boot [1102, imin, -1, 0, 99]) .immediate 2).toInt) = some .arithmeticOverflow := by decide

theorem test_witness_LtRule : 0 ≤ (boot [1107, imax, imin, 0, 99]).ip.toInt ∧
    faultsCompare (boot [1107, imax, imin, 0, 99]) .immediate .immediate .position = none ∧
    faultsCompare (boot [7, -1, 0, 0, 99]) .position .position .position = some .negativeAddress := by decide

theorem test_witness_EqRule : 0 ≤ (boot [1108, imin, imin, 5, 99, 3]).ip.toInt ∧
    faultsCompare (boot [1108, imin, imin, 5, 99, 3]) .immediate .immediate .position = none ∧
    faultsCompare (boot [8, 0, -1, 0, 99]) .position .position .position = some .negativeAddress := by decide

/-- A value in the queue; none in Cooperative mode; none in One-shot mode (F60). -/
theorem test_witness_InputRule : 0 ≤ (boot [3, 0, 99]).ip.toInt ∧
    faultsIn (boot [3, 0, 99] .oneShot [7]) .position = none ∧ (boot [3, 0, 99] .oneShot [7]).inq = 7 :: [] ∧
    faultsIn (boot [3, 0, 99] .cooperative) .position = none ∧ (boot [3, 0, 99] .cooperative).inq = [] ∧
    faultsIn (boot [3, 0, 99]) .position = some .inputExhausted := by decide

/-- Address 0 completes, address -1 does not (F31). -/
theorem test_witness_OutputRule : 0 ≤ (boot [4, 0, 99]).ip.toInt ∧ faultsOut (boot [4, 0, 99]) .position = none ∧
    faultsOut (boot [4, -1, 99]) .position = some .negativeAddress := by decide

/-- Taken where IP + 3 does not fit; not taken, it faults there and completes one cell below. -/
theorem test_witness_JumpIfTrueRule : 0 ≤ (nearEnd (imax - 2)).ip.toInt ∧
    (operandValue (boot [1105, -1, 4]) .immediate 1).toInt ≠ 0 ∧
    faultsJump (boot [1105, -1, 4]) .immediate .immediate true = none ∧
    ¬ (operandValue (nearEnd (imax - 2)) .immediate 1).toInt ≠ 0 ∧
    faultsJump (nearEnd (imax - 2)) .immediate .immediate false = some .arithmeticOverflow ∧
    faultsJump (nearEnd (imax - 3)) .immediate .immediate false = none := by decide

theorem test_witness_JumpIfFalseRule : 0 ≤ (nearEnd (imax - 2)).ip.toInt ∧
    (operandValue (nearEnd (imax - 2)) .immediate 1).toInt = 0 ∧
    faultsJump (nearEnd (imax - 2)) .immediate .immediate true = none ∧
    (operandValue (boot [1106, 1, 4]) .immediate 1).toInt ≠ 0 ∧
    faultsJump (boot [1106, 1, 4]) .immediate .immediate false = none ∧
    faultsJump (boot [6, 0, -1]) .position .position false = some .negativeAddress := by decide

/-- RB = INT_MAX - 1 gains 1; RB = INT_MAX does not (F54). -/
theorem test_witness_AdjustRelativeBaseRule : 0 ≤ (boot [109, 1, 99]).ip.toInt ∧
    faultsArb { boot [109, 1, 99] with rb := Word.ofInt (imax - 1) } .immediate
      ((Word.ofInt (imax - 1)).toInt + (operandValue (boot [109, 1, 99]) .immediate 1).toInt) = none ∧
    faultsArb { boot [109, 1, 99] with rb := Word.ofInt imax } .immediate
      ((Word.ofInt imax).toInt + (operandValue (boot [109, 1, 99]) .immediate 1).toInt) =
        some .arithmeticOverflow := by decide

/-- The five instructions that store nothing, completing, and one of them faulting. -/
theorem test_witness_NonStoringFrame :
    ([Instr.output .position, .jt .position .position, .jf .immediate .relative, .arb .relative, .halt].map
      fun i => (i.writeMode, after (exec i (boot [4, 0, 0, 99])) fun t => decide (t.runState ≠ .faulted))) =
        List.replicate 5 (none, true) ∧
    after (exec (.output .position) (boot [4, -1])) (fun t => decide (t.runState = .faulted)) = true := by decide

/-- The five that store, completing with an address; one without an address; and IN suspending. -/
theorem test_witness_StoringFrame :
    ([Instr.add .position .position .relative, .mul .position .position .relative, .lt .position .position .relative,
      .eq .position .position .relative, .input .relative].map fun i =>
        (i.writeMode, after (exec i (boot [1, 0, 0, 0] .oneShot [1])) fun t => decide (t.runState = .running))) =
          List.replicate 5 (some .relative, true) ∧
    ((operandCell (boot [1, 0, 0, 0]) 3).bind (effectiveAddress (boot [1, 0, 0, 0]) .relative)).toOption = some 0 ∧
    ((operandCell (boot [1, 0, 0, -1]) 3).bind (effectiveAddress (boot [1, 0, 0, -1]) .position)).toOption = none ∧
    after (exec (.add .position .position .position) (boot [1, 0, 0, -1])) (fun t =>
      decide (t.runState = .faulted)) = true ∧
    after (exec (.input .position) (boot [3, 0] .cooperative)) (fun t =>
      decide (t.runState = .awaitingInput)) = true := by decide

theorem test_witness_WriteChangesOneCell : Memory.wf [(0, 5), (7, 1)] = true ∧
    (∃ t, step (boot [1101, 1, 2, 0]) = .next t ∧ decide (t.mem.read 0 = 3) = true) :=
  ⟨by decide, exists_next (by decide)⟩

/-- O4's step, which grows memory by a read; F46's, which grows it by an operand cell at MLEN; and a HALT. -/
theorem test_witness_MemoryGrowsToTheTouchedAddresses :
    (∃ t, step (boot [4, 100, 99]) = .next t ∧ decide (t.runState = .running ∧ t.mlen = 101) = true) ∧
    (∃ t, step (boot [1, 0, 0]) = .next t ∧ decide (t.runState = .running ∧ t.mlen = 4) = true) ∧
    (∃ t, step (boot [99]) = .next t ∧ decide (t.runState ≠ .running) = true) :=
  ⟨exists_next (by decide), exists_next (by decide), exists_next (by decide)⟩

/-- An ADD, a MUL without a Relative operand, and a RESUME. -/
theorem test_witness_OnlyArbWritesRelativeBase :
    (∃ t, exec (.add .position .relative .position) (boot [1, 0, 0, 0]) = .next t ∧ true = true) ∧
    (Mode.relative ∉ (Instr.mul .position .immediate .position).modes ∧
      ∃ t, exec (.mul .position .immediate .position) (boot [1002, 4, 3, 4, 33]) = .next t ∧ true = true) ∧
    (∃ t, transact .resume { boot [99] with runState := .awaitingInput, rb := 5 } = .next t ∧ true = true) :=
  ⟨exists_next (P := fun _ => true) (by decide), ⟨by decide, exists_next (P := fun _ => true) (by decide)⟩,
   exists_next (P := fun _ => true) (by decide)⟩

theorem test_witness_OnlyJumpsLeaveTheSequence :
    ∃ t, exec (.arb .immediate) (boot [109, 1]) = .next t ∧ decide (t.ip = 2) = true := exists_next (by decide)

/-- MI1 and MI2 for the storing family; for OUT, JT and ARB a Position and an Immediate operand of one value. -/
theorem test_witness_ModeIndependence :
    (boot [1, 5, 6, 7, 99, 20, 22, 0]).mem.wf = true ∧ (boot [1101, 20, 22, 7, 99, 20, 22, 0]).mem.wf = true ∧
    operandValue (boot [1, 5, 6, 7, 99, 20, 22, 0]) .position 1 =
      operandValue (boot [1101, 20, 22, 7, 99, 20, 22, 0]) .immediate 1 ∧
    operandValue (boot [1, 5, 6, 7, 99, 20, 22, 0]) .position 2 =
      operandValue (boot [1101, 20, 22, 7, 99, 20, 22, 0]) .immediate 2 ∧
    after (exec (.add .position .position .position) (boot [1, 5, 6, 7, 99, 20, 22, 0])) (fun t =>
      decide (t.runState = .running)) = true ∧
    after (exec (.add .immediate .immediate .position) (boot [1101, 20, 22, 7, 99, 20, 22, 0])) (fun t =>
      decide (t.runState = .running)) = true ∧
    operandValue (boot [4, 0]) .position 1 = operandValue (boot [104, 4]) .immediate 1 ∧
    ([Instr.output .position, .arb .position].map fun i => after (exec i (boot [4, 0])) fun t =>
      decide (t.runState = .running)) = [true, true] ∧
    ([Instr.output .immediate, .arb .immediate].map fun i => after (exec i (boot [104, 4])) fun t =>
      decide (t.runState = .running)) = [true, true] ∧
    operandValue (boot [5, 0, 0]) .position 1 = operandValue (boot [105, 5, 0, 5]) .immediate 1 ∧
    operandValue (boot [5, 0, 0]) .position 2 = operandValue (boot [105, 5, 3, 5]) .position 2 ∧
    after (exec (.jt .position .position) (boot [5, 0, 0])) (fun t => decide (t.runState = .running)) = true ∧
    after (exec (.jt .immediate .position) (boot [105, 5, 3, 5])) (fun t =>
      decide (t.runState = .running)) = true := by decide

/-- The invariants hold where a step goes on to grow memory. -/
theorem test_witness_StepKeepsInvariants : (boot [4, 100, 99]).Inv ∧
    ∃ t, step (boot [4, 100, 99]) = .next t ∧ decide (t.mlen = 101) = true :=
  ⟨⟨by decide, by decide, by decide, by decide, by decide⟩, exists_next (by decide)⟩

/-- A START and an ENQUEUE from a state that meets the invariants. -/
theorem test_witness_EventsKeepInvariants : (boot [99] .cooperative).Inv ∧
    (∃ t, act (.host (.start [4, 100] .oneShot [imin])) (boot [99] .cooperative) = .next t ∧
      decide (t.mlen = 2) = true) ∧
    (∃ t, act (.host (.enqueue 7)) (boot [99] .cooperative) = .next t ∧ decide (t.inq = [7]) = true) :=
  ⟨⟨by decide, by decide, by decide, by decide, by decide⟩, exists_next (by decide), exists_next (by decide)⟩

theorem test_witness_ReachableStatesMeetInvariants : Reachable (boot [99] .cooperative [5]) :=
  .start [99] .cooperative [5] _ rfl

theorem test_witness_MonotoneBetweenResets :
    ∃ t, act (.host (.enqueue 7)) (boot [99] .cooperative) = .next t ∧ decide (t.inq = [7]) = true :=
  exists_next (by decide)

theorem test_witness_StartGivesResetValues : (∀ v ∈ [imin, imax, 99], fits v) ∧ (∀ v ∈ [imin, imax], fits v) ∧
    [imin, imax, 99].length ≤ Config.addrMax + 1 := by decide

theorem test_witness_IllegalStartIsRefused : (∃ v ∈ [imax + 1], ¬ fits v) ∧ (∃ v ∈ [imin - 1], ¬ fits v) ∧
    Config.addrMax + 1 < (List.replicate (Config.addrMax + 2) (0 : Int)).length :=
  ⟨⟨_, List.mem_singleton.2 rfl, by decide⟩, ⟨_, List.mem_singleton.2 rfl, by decide⟩,
   by rw [List.length_replicate]; decide⟩

theorem test_witness_HostTransactionEffects : ((boot [99] .cooperative).mode = .cooperative ∧ fits imax) ∧
    ¬ fits (imax + 1) ∧ { boot [99] with runState := .awaitingInput }.runState = .awaitingInput ∧
    { boot [99] with runState := .halted }.runState ≠ .awaitingInput ∧
    { boot [99] with runState := .halted }.runState ≠ .running ∧ (boot [99]).runState = .running := by decide

theorem test_witness_EndedStatesAreTerminal :
    { boot [99] .cooperative with runState := .halted }.ended = true ∧
    ∃ t, act (.host (.enqueue 1)) { boot [99] .cooperative with runState := .halted } = .next t ∧
      decide (t.inq = [1]) = true := ⟨by decide, exists_next (by decide)⟩

/-- A committed IN, a committed OUT, and a step that leaves Running. -/
theorem test_witness_ChannelOrder : (boot [3, 0, 99] .oneShot [1, 2]).mem.wf = true ∧
    (∃ t, step (boot [3, 0, 99] .oneShot [1, 2]) = .next t ∧ decide (t.runState = .running) = true) ∧
    (∃ t, step (boot [104, -7, 99]) = .next t ∧ decide (t.runState = .running) = true) ∧
    (∃ t, step (boot [99]) = .next t ∧ decide (t.runState ≠ .running) = true) :=
  ⟨by decide, exists_next (by decide), exists_next (by decide), exists_next (by decide)⟩

/-- P3d's beginning: a suspension, two values, a RESUME and a step. -/
theorem test_witness_RunDependsOnlyOnEnqueuedValues :
    (boot [3, 5, 99] .cooperative).mode = .cooperative ∧ (boot [3, 5, 99] .cooperative).runState = .running ∧
    (drive [.step, .enqueue 5, .enqueue 6, .resume, .step] (boot [3, 5, 99] .cooperative)).map
      (fun t => (t.mem.read 5, t.inq, t.ip)) = some (5, [6], 2) := by decide

theorem test_witness_InstancesAreIsolated :
    (match actOn 1 .step [boot [], boot [99], boot [3, 0]] with
      | .next all => all.map State.runState
      | .fault _ => []
      | .refused _ => []) = [.running, .halted, .running] ∧
    [boot [4, 4], boot [99]][1]? = [boot [], boot [99], boot [3, 0]][1]? := by decide

theorem test_witness_RunCallEndsWhenNotRunning :
    (runCall 3 (boot [104, 1, 99])).map State.out = some [1] := by decide

end Sys2Proof.Tests
end

section
/-! PROOFS. The statements of spec/20_memory.md: a step's one memory write, and the isolation of instances. -/

namespace Sys2Proof.Machine

/-! ## The one memory write of a step (R54, R120) -/

/-- The read-after-write law and the frame of a write, in one equation (R54). -/
theorem Memory.read_write {m : Memory} (hm : m.wf = true) (a x : Nat) (v : Word) :
    (m.write a v).read x = if x = a then v else m.read x := by
  split
  · next h => rw [h, Memory.read_write_self hm]
  · next h => exact Memory.read_write_other m v h

/-- The destination of a resolved format F3 is the address operand 3 gives, and it counts as touched (R119, R55). -/
theorem resolveF3_dst {s : State} {a b d : Mode} {o : OperandsF3} (h : resolveF3 s a b d = .ok o) :
    (operandCell s 3).bind (effectiveAddress s d) = .ok o.dst ∧ (o.dst : Int) ∈ o.touched := by
  obtain ⟨_, -, h⟩ := bind_eq_ok h
  obtain ⟨_, -, h⟩ := bind_eq_ok h
  obtain ⟨_, -, h⟩ := bind_eq_ok h
  obtain ⟨rd, hrd, h⟩ := bind_eq_ok h
  obtain ⟨_, -, h⟩ := bind_eq_ok h
  obtain ⟨_, -, h⟩ := bind_eq_ok h
  obtain ⟨dst, hdst, h⟩ := bind_eq_ok h
  cases h
  exact ⟨by rw [hrd]; exact hdst, by simp⟩

/-- The destination of a resolved format F1W is the address operand 1 gives, and it counts as touched (R119, R55). -/
theorem resolveF1W_dst {s : State} {d : Mode} {o : OperandsF1W} (h : resolveF1W s d = .ok o) :
    (operandCell s 1).bind (effectiveAddress s d) = .ok o.dst ∧ (o.dst : Int) ∈ o.touched := by
  obtain ⟨_, -, h⟩ := bind_eq_ok h
  obtain ⟨rd, hrd, h⟩ := bind_eq_ok h
  obtain ⟨dst, hdst, h⟩ := bind_eq_ok h
  cases h
  exact ⟨by rw [hrd]; exact hdst, by simp⟩

/-- An address that an operand cell gives is a valid address (R50). -/
theorem bind_effectiveAddress_le {s : State} {m : Mode} {c : Except FaultKind Word} {a : Nat}
    (h : c.bind (effectiveAddress s m) = .ok a) : a ≤ Config.addrMax := by
  obtain ⟨_, -, h⟩ := bind_eq_ok h
  exact effectiveAddress_le h

/-- ADD, MUL, LT and EQ write through their third operand (R87). -/
theorem writeMode_arity_of_store {mk : Mode → Mode → Mode → Instr}
    (family : mk ∈ [Instr.add, Instr.mul, Instr.lt, Instr.eq]) (a b d : Mode) :
    (mk a b d).writeMode = some d ∧ (mk a b d).opcode.arity = 3 := by
  simp only [List.mem_cons, List.not_mem_nil, or_false] at family
  rcases family with rfl | rfl | rfl | rfl <;> exact ⟨rfl, rfl⟩

/-- Memory goes from `s` to `t` by one write at the address that instruction `i`'s destination, its last operand,
gives in `s`; the memory of `t` covers it. -/
def WritesDestination (s : State) (i : Instr) (t : State) : Prop :=
  ∃ d a v, i.writeMode = some d ∧ (operandCell s i.opcode.arity).bind (effectiveAddress s d) = .ok a ∧
    a < t.mlen ∧ t.mem = s.mem.write a v

/-- An instruction leaves memory alone or writes its destination, once (R120). -/
theorem Effect.mem_eq_or_writes {s t : State} {i : Instr} (h : Effect s i t) :
    t.mem = s.mem ∨ WritesDestination s i t := by
  cases h with
  | fault | starve | output | jump | arb | halt => exact .inl rfl
  | store mk a b d o ip v family resolved =>
    obtain ⟨hmode, harity⟩ := writeMode_arity_of_store family a b d
    obtain ⟨hdst, htouched⟩ := resolveF3_dst resolved
    exact .inr ⟨d, o.dst, v, hmode, by rw [harity]; exact hdst, lt_grow htouched, rfl⟩
  | input d o ip x rest queue resolved =>
    obtain ⟨hdst, htouched⟩ := resolveF1W_dst resolved
    exact .inr ⟨d, o.dst, x, rfl, hdst, lt_grow htouched, rfl⟩

/-- A step leaves memory alone, or the instruction it decoded writes its destination, once (R120). -/
theorem step_mem_eq_or_writes {s t : State} (h : step s = .next t) :
    t.mem = s.mem ∨
      ∃ i, decode (s.mem.read s.ip.toInt.toNat) = .ok i ∧ WritesDestination s i t := by
  obtain ⟨-, ⟨-, rfl⟩ | ⟨-, e, -, rfl⟩ | ⟨hip, i, hi, hexec⟩⟩ := step_eq_next h
  · exact .inl rfl
  · exact .inl rfl
  · rw [instrWord_of_nonneg hip.1] at hi
    exact (exec_effect hexec).mem_eq_or_writes.imp_right fun hw => ⟨i, hi, hw⟩

/-- Settles O28: reads after a write by the laws of memory, the step's write by the effect of its instruction. -/
theorem writeChangesOneCell : Obligations.WriteChangesOneCell := by
  refine ⟨fun m a x v hm => ⟨Memory.wf_write hm a v, Memory.read_write hm a x v⟩, fun s t h => ?_⟩
  refine (step_mem_eq_or_writes h).imp_right ?_
  rintro ⟨i, hi, d, a, v, hmode, haddr, hlt, hmem⟩
  exact ⟨i, d, a, v, hi, hmode, haddr, bind_effectiveAddress_le haddr, hlt, hmem⟩

/-! ## Isolation of instances (R69, R220) -/

/-- Everything an event at machine k of several can do: that machine exists, and the event moves it in place (R220). -/
theorem actOn_eq_next_iff {k : Nat} {e : Event} {all all' : List State} :
    actOn k e all = .next all' ↔
      ∃ s t, all[k]? = some s ∧ act e s = .next t ∧ all.set k t = all' := by
  unfold actOn
  cases all[k]? with
  | none => simp
  | some s =>
    dsimp only
    cases hact : act e s <;> simp [hact]

/-- Settles O43: an event at machine k is a move of its own state, put back in its place. -/
theorem instancesAreIsolated : Obligations.InstancesAreIsolated := by
  intro k e all all' h
  obtain ⟨s, t, hs, ht, rfl⟩ := actOn_eq_next_iff.1 h
  refine ⟨fun j hj => List.getElem?_set_ne hj.symm, fun other hother => ?_⟩
  refine ⟨other.set k t, actOn_eq_next_iff.2 ⟨s, t, hother.trans hs, ht, rfl⟩, ?_⟩
  rw [List.getElem?_set_self', List.getElem?_set_self', hother]

end Sys2Proof.Machine
end

section
/-! PROOFS. The statements of spec/40_step_and_operands.md: the addressing modes, and that results depend on the
resolved values and not on the modes. -/

namespace Sys2Proof.Machine

/-! ## The addressing modes (R116, R118) -/

theorem checkAddress_of_neg {e : Int} (hf : fits e) (h : e < 0) : checkAddress e = .error .negativeAddress := by
  rw [checkAddress, if_pos hf, if_pos h]

theorem checkAddress_of_nonneg {e : Int} (hf : fits e) (h : 0 ≤ e) : checkAddress e = .ok e.toNat := by
  rw [checkAddress, if_pos hf, if_neg (not_lt.2 h)]

/-- Resolving an operand with an address raises the address's fault. -/
theorem readOperand_of_address_error {s : State} {m : Mode} {r : Word} {k : FaultKind} (hm : m ≠ .immediate)
    (h : effectiveAddress s m r = .error k) : readOperand s m r = .error k := by
  cases m with
  | immediate => exact absurd rfl hm
  | position | relative => rw [readOperand, h]; rfl

/-- Resolving an operand with an address that passes its test reads the cell there and touches no other. -/
theorem readOperand_of_address_ok {s : State} {m : Mode} {r : Word} {a : Nat} (hm : m ≠ .immediate)
    (h : effectiveAddress s m r = .ok a) : readOperand s m r = .ok ⟨s.mem.read a, [(a : Int)]⟩ := by
  cases m with
  | immediate => exact absurd rfl hm
  | position | relative => rw [readOperand, h]; rfl

/-- Settles O13: a raw value always fits, so its sign alone decides whether it is an address. -/
theorem positionOperand : Obligations.PositionOperand := by
  refine fun s r => ⟨fun hneg => ?_, fun hnonneg => ?_⟩
  · have he : effectiveAddress s .position r = .error .negativeAddress :=
      checkAddress_of_neg (Word.fits_toInt r) hneg
    exact ⟨readOperand_of_address_error (by decide) he, he⟩
  · have he : effectiveAddress s .position r = .ok r.toInt.toNat :=
      checkAddress_of_nonneg (Word.fits_toInt r) hnonneg
    exact ⟨by rw [readOperand_of_address_ok (by decide) he, Int.toNat_of_nonneg hnonneg], he⟩

/-- Settles O15: both halves are the Immediate cases of the definitions. -/
theorem immediateOperand : Obligations.ImmediateOperand := ⟨fun _ _ => rfl, rfl⟩

/-! ## What a resolution and a range check answer when they succeed -/

theorem eq_of_faultsOr_eq_ok {α : Type} {l : List (Bool × FaultKind)} {a b : α} (h : faultsOr l a = .ok b) :
    b = a := by
  unfold faultsOr at h
  split at h <;> cases h
  rfl

theorem narrow_eq_ok {v : Int} {w : Word} (h : narrow v = .ok w) : w.toInt = v := by
  unfold narrow at h
  split at h <;> cases h
  exact Word.toInt_ofInt ‹_›

/-- An instruction that answers a Running state has raised no fault. -/
theorem complete_eq_running {s t : State} {r : Except FaultKind State} (h : complete s r = .next t)
    (ht : t.runState = .running) : r = .ok t := by
  rcases complete_eq_next h with h | ⟨k, -, rfl⟩
  · exact h
  · cases ht

/-! ## The computation of each family, apart from its modes (R124) -/

/-- ADD, MUL, LT and EQ store a function of the two resolved values, the same for all modes and states. -/
theorem exec_eq_of_store {mk : Mode → Mode → Mode → Instr}
    (family : mk ∈ [Instr.add, Instr.mul, Instr.lt, Instr.eq]) :
    ∃ f : Word → Word → Except FaultKind Word, ∀ (s : State) (a b d : Mode),
      exec (mk a b d) s = complete s (do
        let o ← resolveF3 s a b d
        let v ← f o.a o.b
        let ip ← nextIp s 4
        .ok (commitStore s ip o.touched o.dst v)) := by
  simp only [List.mem_cons, List.not_mem_nil, or_false] at family
  rcases family with rfl | rfl | rfl | rfl
  · exact ⟨fun x y => narrow (x.toInt + y.toInt), fun _ _ _ _ => rfl⟩
  · exact ⟨fun x y => narrow (x.toInt * y.toInt), fun _ _ _ _ => rfl⟩
  · exact ⟨fun x y => .ok (truthValue (isLess x y)), fun _ _ _ _ => rfl⟩
  · exact ⟨fun x y => .ok (truthValue (isEqual x y)), fun _ _ _ _ => rfl⟩

/-- A storing instruction that completes: its destination reads what its function answers for the resolved values. -/
theorem exec_store_value {mk : Mode → Mode → Mode → Instr}
    (family : mk ∈ [Instr.add, Instr.mul, Instr.lt, Instr.eq]) :
    ∃ f : Word → Word → Except FaultKind Word, ∀ {s t : State} {a b d : Mode}, 0 ≤ s.ip.toInt →
      s.mem.wf = true → exec (mk a b d) s = .next t → t.runState = .running →
      f (operandValue s a 1) (operandValue s b 2) = .ok (t.mem.read (operandAddress s d 3).toNat) := by
  obtain ⟨f, hf⟩ := exec_eq_of_store family
  refine ⟨f, fun hip hwf h ht => ?_⟩
  rw [hf, resolveF3_eq hip] at h
  obtain ⟨o, ho, h⟩ := bind_eq_ok (complete_eq_running h ht)
  obtain rfl := eq_of_faultsOr_eq_ok ho
  obtain ⟨v, hv, h⟩ := bind_eq_ok h
  obtain ⟨ip, -, h⟩ := bind_eq_ok h
  cases h
  rw [commitStore_mem, Memory.read_write_self hwf]
  exact hv

/-- JT and JF go where their test of the first resolved value decides, the same test for all modes and states. -/
theorem exec_eq_of_jump {mk : Mode → Mode → Instr} (family : mk ∈ [Instr.jt, Instr.jf]) :
    ∃ taken : Word → Bool, ∀ (s : State) (a b : Mode),
      exec (mk a b) s = complete s (do
        let o ← resolveF2 s a b
        let ip ← jumpIp s (taken o.a) o.target
        .ok (commit s ip o.touched)) := by
  simp only [List.mem_cons, List.not_mem_nil, or_false] at family
  rcases family with rfl | rfl
  · exact ⟨isNonZero, fun _ _ _ => rfl⟩
  · exact ⟨fun x => !isNonZero x, fun _ _ _ => rfl⟩

/-- A jump that completes: the new IP is the one its test gives for the resolved values. -/
theorem exec_jump_ip {mk : Mode → Mode → Instr} (family : mk ∈ [Instr.jt, Instr.jf]) :
    ∃ taken : Word → Bool, ∀ {s t : State} {a b : Mode}, 0 ≤ s.ip.toInt →
      exec (mk a b) s = .next t → t.runState = .running →
      jumpIp s (taken (operandValue s a 1)) (operandValue s b 2) = .ok t.ip := by
  obtain ⟨taken, htaken⟩ := exec_eq_of_jump family
  refine ⟨taken, fun hip h ht => ?_⟩
  rw [htaken, resolveF2_eq hip] at h
  obtain ⟨o, ho, h⟩ := bind_eq_ok (complete_eq_running h ht)
  obtain rfl := eq_of_faultsOr_eq_ok ho
  obtain ⟨ip, hjump, h⟩ := bind_eq_ok h
  cases h
  exact hjump

/-- Of the state, a jump's new IP depends on the old IP only. -/
theorem jumpIp_congr {s s' : State} (h : s.ip = s'.ip) (taken : Bool) (target : Word) :
    jumpIp s taken target = jumpIp s' taken target := by
  rw [jumpIp, jumpIp, nextIp, nextIp, h]

/-- OUT that completes emits the resolved value (R152). -/
theorem exec_output_out {s t : State} {a : Mode} (hip : 0 ≤ s.ip.toInt) (h : exec (.output a) s = .next t)
    (ht : t.runState = .running) : t.out = s.out ++ [operandValue s a 1] := by
  obtain ⟨o, ho, h⟩ := bind_eq_ok (complete_eq_running h ht)
  rw [resolveF1R_eq hip] at ho
  obtain rfl := eq_of_faultsOr_eq_ok ho
  obtain ⟨ip, -, h⟩ := bind_eq_ok h
  cases h
  rfl

/-- ARB that completes adds the resolved value to RB, exactly (R180). -/
theorem exec_arb_rb {s t : State} {a : Mode} (hip : 0 ≤ s.ip.toInt) (h : exec (.arb a) s = .next t)
    (ht : t.runState = .running) : t.rb.toInt = s.rb.toInt + (operandValue s a 1).toInt := by
  obtain ⟨o, ho, h⟩ := bind_eq_ok (complete_eq_running h ht)
  rw [resolveF1R_eq hip] at ho
  obtain rfl := eq_of_faultsOr_eq_ok ho
  obtain ⟨rb, hrb, h⟩ := bind_eq_ok h
  obtain ⟨ip, -, h⟩ := bind_eq_ok h
  cases h
  exact narrow_eq_ok hrb

/-- Settles O31: each result is one function of the resolved values, which the two runs share. -/
theorem modeIndependence : Obligations.ModeIndependence := by
  refine ⟨?store, ?output, ?jump, ?arb⟩
  case store =>
    intro mk family s s' t t' a b d a' b' d' _ _ hip hip' hwf hwf' ha hb h ht h' ht'
    obtain ⟨f, hf⟩ := exec_store_value family
    have hv := hf hip hwf h ht
    rw [ha, hb, hf hip' hwf' h' ht'] at hv
    exact (Except.ok.inj hv).symm
  case output =>
    intro s s' t t' a a' _ _ hip hip' ha h ht h' ht'
    rw [exec_output_out hip h ht, exec_output_out hip' h' ht', ha, List.getLast?_concat, List.getLast?_concat]
  case jump =>
    intro mk family s s' t t' a b a' b' _ _ hip hips ha hb h ht h' ht'
    obtain ⟨taken, htaken⟩ := exec_jump_ip family
    have hv := htaken hip h ht
    rw [ha, hb, jumpIp_congr hips, htaken (hips ▸ hip) h' ht'] at hv
    exact (Except.ok.inj hv).symm
  case arb =>
    intro s s' t t' a a' _ _ hip hip' ha h ht h' ht'
    rw [exec_arb_rb hip h ht, exec_arb_rb hip' h' ht', ha, add_sub_cancel_left, add_sub_cancel_left]

end Sys2Proof.Machine
end

section
/-! PROOFS. The statement of spec/45_relbase.md: ARB alone writes RB, and only Relative operands read it. -/

namespace Sys2Proof.Machine

/-! ## ARB is the only writer of RB besides reset (R181) -/

/-- Every effect of an instruction but ARB leaves RB alone. -/
theorem Effect.rb_eq {s t : State} {i : Instr} (h : Effect s i t) (hi : ∀ a, i ≠ .arb a) : t.rb = s.rb := by
  cases h with
  | arb a => exact absurd rfl (hi a)
  | fault | store | input | starve | output | jump | halt => rfl

theorem enqueue_rb_eq {v : Int} {s t : State} (h : enqueue v s = .next t) : t.rb = s.rb := by
  unfold enqueue at h
  split at h
  · cases h
  · split at h <;> cases h
    rfl

theorem resume_rb_eq {s t : State} (h : resume s = .next t) : t.rb = s.rb := by
  unfold resume at h
  split at h <;> cases h
  rfl

/-- READ_MEMORY, where it is enabled, leaves the whole state alone (R215). -/
theorem transact_readMemory_eq {s t : State} (h : transact .readMemory s = .next t) : t = s := by
  by_cases hs : s.runState = .running
  · cases (if_pos hs).symm.trans h
  · cases (if_neg hs).symm.trans h; rfl

/-- Every transaction but START leaves RB alone. -/
theorem transact_rb_eq {tr : Transaction} {s t : State} (htr : ∀ im m q, tr ≠ .start im m q)
    (h : transact tr s = .next t) : t.rb = s.rb := by
  cases tr with
  | start im m q => exact absurd rfl (htr im m q)
  | enqueue v => exact enqueue_rb_eq h
  | resume => exact resume_rb_eq h
  | observe => cases h; rfl
  | readMemory => rw [transact_readMemory_eq h]

/-! ## RB has no reader besides Relative operands (R181) -/

/-- The same state with another RB. -/
def State.withRb (s : State) (b : Word) : State := { s with rb := b }

section WithRb

variable (s : State) (b : Word)

@[simp] theorem withRb_mode : (s.withRb b).mode = s.mode := rfl
@[simp] theorem withRb_inq : (s.withRb b).inq = s.inq := rfl
@[simp] theorem operandCell_withRb (k : Nat) : operandCell (s.withRb b) k = operandCell s k := rfl
@[simp] theorem instrCells_withRb (n : Nat) : instrCells (s.withRb b) n = instrCells s n := rfl
@[simp] theorem nextIp_withRb (n : Nat) : nextIp (s.withRb b) n = nextIp s n := rfl
@[simp] theorem jumpIp_withRb (taken : Bool) (target : Word) :
    jumpIp (s.withRb b) taken target = jumpIp s taken target := rfl

/-- Starving reads and writes no RB. -/
theorem starved_withRb : starved (s.withRb b) = (·.withRb b) <$> starved s := by
  unfold starved
  rw [withRb_mode]
  cases s.mode <;> rfl

/-- The execute phase of IN reads and writes no RB. -/
theorem takeInput_withRb (ip : Word) (o : OperandsF1W) :
    takeInput (s.withRb b) ip o = (·.withRb b) <$> takeInput s ip o := by
  unfold takeInput
  rw [withRb_inq]
  cases s.inq with
  | nil => exact starved_withRb s b
  | cons x rest => rfl

end WithRb

section NoRelativeOperand

variable {s : State} {b : Word}

theorem effectiveAddress_withRb {m : Mode} (hm : m ≠ .relative) (r : Word) :
    effectiveAddress (s.withRb b) m r = effectiveAddress s m r := by
  cases m with
  | relative => exact absurd rfl hm
  | position | immediate => rfl

theorem readOperand_withRb {m : Mode} (hm : m ≠ .relative) (r : Word) :
    readOperand (s.withRb b) m r = readOperand s m r := by
  cases m with
  | relative => exact absurd rfl hm
  | position | immediate => rfl

theorem resolveF3_withRb {x y d : Mode} (h : Mode.relative ∉ [x, y, d]) :
    resolveF3 (s.withRb b) x y d = resolveF3 s x y d := by
  simp only [List.mem_cons, List.not_mem_nil, or_false, not_or] at h
  obtain ⟨hx, hy, hd⟩ := h
  simp only [resolveF3, operandCell_withRb, instrCells_withRb, readOperand_withRb (Ne.symm hx),
    readOperand_withRb (Ne.symm hy), effectiveAddress_withRb (Ne.symm hd)]

theorem resolveF2_withRb {x y : Mode} (h : Mode.relative ∉ [x, y]) :
    resolveF2 (s.withRb b) x y = resolveF2 s x y := by
  simp only [List.mem_cons, List.not_mem_nil, or_false, not_or] at h
  obtain ⟨hx, hy⟩ := h
  simp only [resolveF2, operandCell_withRb, instrCells_withRb, readOperand_withRb (Ne.symm hx),
    readOperand_withRb (Ne.symm hy)]

theorem resolveF1R_withRb {x : Mode} (h : Mode.relative ∉ [x]) :
    resolveF1R (s.withRb b) x = resolveF1R s x := by
  have hx : x ≠ .relative := fun hx => h (List.mem_singleton.2 hx.symm)
  simp only [resolveF1R, operandCell_withRb, instrCells_withRb, readOperand_withRb hx]

theorem resolveF1W_withRb {d : Mode} (h : Mode.relative ∉ [d]) :
    resolveF1W (s.withRb b) d = resolveF1W s d := by
  have hd : d ≠ .relative := fun hd => h (List.mem_singleton.2 hd.symm)
  simp only [resolveF1W, operandCell_withRb, instrCells_withRb, effectiveAddress_withRb hd]

/-- An instruction's result, carried over to another RB, is answered as the same next state but for RB. -/
theorem complete_withRb {t : State} {r : Except FaultKind State} (h : complete s r = .next t) :
    complete (s.withRb b) ((·.withRb b) <$> r) = .next (t.withRb b) := by
  rcases complete_eq_next h with rfl | ⟨k, rfl, rfl⟩ <;> rfl

/-- Without a Relative operand, an instruction but ARB computes the same result under another RB, up to RB itself. -/
theorem exec_eq_complete_withRb {i : Instr} (harb : ∀ a, i ≠ .arb a) (h : Mode.relative ∉ i.modes) :
    ∃ r, exec i s = complete s r ∧ exec i (s.withRb b) = complete (s.withRb b) ((·.withRb b) <$> r) := by
  cases i with
  | add x y d | mul x y d | lt x y d | eq x y d =>
    refine ⟨_, rfl, congrArg (complete _) ?_⟩
    rw [resolveF3_withRb h]
    simp only [map_bind, nextIp_withRb]
    rfl
  | jt x y | jf x y =>
    refine ⟨_, rfl, congrArg (complete _) ?_⟩
    rw [resolveF2_withRb h]
    simp only [map_bind, jumpIp_withRb]
    rfl
  | input d =>
    refine ⟨_, rfl, congrArg (complete _) ?_⟩
    rw [resolveF1W_withRb h]
    simp only [map_bind, nextIp_withRb, takeInput_withRb]
  | output x =>
    refine ⟨_, rfl, congrArg (complete _) ?_⟩
    rw [resolveF1R_withRb h]
    simp only [map_bind, nextIp_withRb]
    rfl
  | arb x => exact absurd rfl (harb x)
  | halt => exact ⟨.ok { s with runState := .halted }, rfl, rfl⟩

end NoRelativeOperand

/-- Settles O29: the writers by the effects of instructions and transactions, the readers by carrying an instruction's
result over to another RB. -/
theorem onlyArbWritesRelativeBase : Obligations.OnlyArbWritesRelativeBase := by
  refine ⟨fun i s t h harb => (exec_effect h).rb_eq harb, fun i s t b harb hmodes h => ?_,
    fun tr s t htr h => transact_rb_eq htr h⟩
  obtain ⟨r, hs, hb⟩ := exec_eq_complete_withRb (s := s) (b := b) harb hmodes
  rw [hs] at h
  exact hb.trans (complete_withRb h)

end Sys2Proof.Machine
end

section
/-! PROOFS. The statement of spec/50_run_control_and_io.md: the transition table of STATE. -/

namespace Sys2Proof.Machine

/-! ## What a transaction answers (R211 to R213) -/

theorem start_eq_next {image q0 : List Int} {mode : RunMode} {t : State} (h : start image mode q0 = .next t) :
    ∃ im q, hostValues image = some im ∧ hostValues q0 = some q ∧ im.length ≤ Config.addrMax + 1 ∧
      t = startState im mode q := by
  unfold start at h
  split at h
  · split at h <;> cases h
    exact ⟨_, _, ‹_›, ‹_›, ‹_›, rfl⟩
  · cases h

theorem enqueue_eq_next {v : Int} {s t : State} (h : enqueue v s = .next t) :
    s.mode = .cooperative ∧ ∃ x, hostValue v = some x ∧ t = { s with inq := s.inq ++ [x] } := by
  unfold enqueue at h
  split at h
  · cases h
  · split at h <;> cases h
    exact ⟨‹_›, _, ‹_›, rfl⟩

theorem resume_eq_next {s t : State} (h : resume s = .next t) :
    s.runState = .awaitingInput ∧ t = { s with runState := .running } := by
  unfold resume at h
  split at h <;> cases h
  exact ⟨‹_›, rfl⟩

/-! ## How a step ends, by the STATE it reaches (R201) -/

/-- A step from `s` passes the fetch check and decodes instruction `i` (R111, R112). -/
def State.Fetches (s : State) (i : Instr) : Prop :=
  0 ≤ s.ip.toInt ∧ s.ip.toInt < s.mlen ∧ decode (s.mem.read s.ip.toInt.toNat) = .ok i

theorem State.fetches_iff {s : State} {i : Instr} :
    s.Fetches i ↔ s.ipInRange ∧ decode s.instrWord = .ok i := by
  refine ⟨fun ⟨h0, hlen, hi⟩ => ⟨⟨h0, hlen⟩, ?_⟩, fun ⟨⟨h0, hlen⟩, hi⟩ => ⟨h0, hlen, ?_⟩⟩
  · rwa [instrWord_of_nonneg h0]
  · rwa [instrWord_of_nonneg h0] at hi

theorem State.Fetches.unique {s : State} {i j : Instr} (hi : s.Fetches i) (hj : s.Fetches j) : i = j := by
  obtain ⟨-, -, hi⟩ := hi
  obtain ⟨-, -, hj⟩ := hj
  exact Except.ok.inj (hi.symm.trans hj)

/-- The rows of R201 for a step from `s` to `t`: what the STATE reached says of the instruction fetched. -/
def StepRow (s t : State) : Prop :=
  match t.runState with
  | .running => ∃ i, s.Fetches i ∧ i ≠ .halt ∧ ∀ d, i = .input d → s.inq ≠ []
  | .halted => s.Fetches .halt
  | .faulted => t.faultKind ≠ none ∧ ¬ s.Fetches .halt
  | .awaitingInput => s.inq = [] ∧ s.mode = .cooperative ∧ ∃ d, s.Fetches (.input d)

section StepRow
variable {s t : State}

theorem stepRow_of_running (ht : t.runState = .running) {i : Instr} (hi : s.Fetches i) (hhalt : i ≠ .halt)
    (hinq : ∀ d, i = .input d → s.inq ≠ []) : StepRow s t := by
  rw [StepRow, ht]
  exact ⟨i, hi, hhalt, hinq⟩

theorem stepRow_takeFault (k : FaultKind) (h : ¬ s.Fetches .halt) : StepRow s (takeFault k s) :=
  ⟨Option.some_ne_none k, h⟩

/-- HALT halts; every other instruction faults, suspends, or leaves STATE as it was, which is Running. -/
theorem stepRow_of_exec {i : Instr} (hs : s.runState = .running) (hi : s.Fetches i) (h : exec i s = .next t) :
    StepRow s t := by
  by_cases hhalt : i = .halt
  · subst hhalt
    cases h
    exact hi
  have effect := exec_effect h
  cases effect with
  | fault i k => exact stepRow_takeFault k fun hf => hhalt (hi.unique hf)
  | starve d queue mode => exact ⟨queue, mode, d, hi⟩
  | input d o ip x rest queue => exact stepRow_of_running hs hi hhalt fun _ _ => by simp [queue]
  | store mk a b d o ip v family =>
    obtain ⟨-, harity⟩ := writeMode_arity_of_store family a b d
    exact stepRow_of_running hs hi hhalt fun d' hin => by cases hin ▸ harity
  | jump mk a b o ip family =>
    refine stepRow_of_running hs hi hhalt fun d hin => ?_
    simp only [List.mem_cons, List.not_mem_nil, or_false] at family
    rcases family with rfl | rfl <;> cases hin
  | output | arb => exact stepRow_of_running hs hi hhalt fun _ hin => by cases hin
  | halt => exact absurd rfl hhalt

/-- Fetch and decode faults fetch no instruction, so no HALT; the rest is the decoded instruction's. -/
theorem stepRow_of_step (h : step s = .next t) : s.runState = .running ∧ StepRow s t := by
  obtain ⟨hs, ⟨hip, rfl⟩ | ⟨-, e, he, rfl⟩ | ⟨hip, i, hi, hexec⟩⟩ := step_eq_next h
  · exact ⟨hs, stepRow_takeFault _ fun hf => hip (State.fetches_iff.1 hf).1⟩
  · refine ⟨hs, stepRow_takeFault _ fun hf => ?_⟩
    obtain ⟨-, hok⟩ := State.fetches_iff.1 hf
    cases he.symm.trans hok
  · exact ⟨hs, stepRow_of_exec hs (State.fetches_iff.2 ⟨hip, hi⟩) hexec⟩

end StepRow

/-- Settles O11: the host's rows by what each transaction answers, the step's rows by the effect of its instruction. -/
theorem stateTransitionTable : Obligations.StateTransitionTable := by
  intro e s t h
  match e with
  | .host (.start _ _ _) =>
    obtain ⟨im, q, -, -, -, rfl⟩ := start_eq_next h
    rfl
  | .host (.enqueue _) =>
    obtain ⟨-, x, -, rfl⟩ := enqueue_eq_next h
    rfl
  | .host .resume =>
    obtain ⟨hs, rfl⟩ := resume_eq_next h
    exact ⟨hs, rfl⟩
  | .host .observe => cases h; rfl
  | .host .readMemory => exact congrArg State.runState (transact_readMemory_eq h)
  | .step => exact stepRow_of_step h

end Sys2Proof.Machine
end

section
/-! PROOFS. The statement of spec/70_reset_and_hazards.md: input is consumed front to back, one value per committed
IN, and output appended, one value per committed OUT. -/

namespace Sys2Proof.Machine

/-! ## What an instruction does to INQ and OUT (R150, R152, R290) -/

/-- The instruction is neither IN nor OUT, the two that reach a queue. -/
def NoChannel (i : Instr) : Prop := (∀ d, i ≠ .input d) ∧ ∀ a, i ≠ .output a

/-- IN and OUT have one operand, so an instruction with another number of them is neither. -/
theorem noChannel_of_arity {i : Instr} (h : i.opcode.arity ≠ 1) : NoChannel i :=
  ⟨fun _ hi => h (hi ▸ rfl), fun _ hi => h (hi ▸ rfl)⟩

theorem arity_of_jump {mk : Mode → Mode → Instr} (family : mk ∈ [Instr.jt, Instr.jf]) (a t : Mode) :
    (mk a t).opcode.arity = 2 := by
  simp only [List.mem_cons, List.not_mem_nil, or_false] at family
  rcases family with rfl | rfl <;> rfl

/-- What instruction `i`, committed from `s` to `t`, does to the queues: IN moves the front of INQ to its destination,
OUT appends its value to OUT, every other instruction leaves both alone. -/
def ChannelMove (s : State) (i : Instr) (t : State) : Prop :=
  (∃ d x, i = .input d ∧ s.inq = x :: t.inq ∧ t.mem.read (operandAddress s d 1).toNat = x ∧ t.out = s.out) ∨
  (∃ a, i = .output a ∧ t.out = s.out ++ [operandValue s a 1] ∧ t.inq = s.inq) ∨
  ((∀ d, i ≠ .input d) ∧ (∀ a, i ≠ .output a) ∧ t.inq = s.inq ∧ t.out = s.out)

theorem channelMove_of_noChannel {s t : State} {i : Instr} (hi : NoChannel i) (hinq : t.inq = s.inq)
    (hout : t.out = s.out) : ChannelMove s i t := by
  obtain ⟨notInput, notOutput⟩ := hi
  exact .inr (.inr ⟨notInput, notOutput, hinq, hout⟩)

/-- An instruction that leaves Running faults, suspends or halts, and none of the three reaches a queue. -/
theorem Effect.channels_eq_of_not_running {s t : State} {i : Instr} (h : Effect s i t)
    (hs : s.runState = .running) (ht : t.runState ≠ .running) : t.inq = s.inq ∧ t.out = s.out := by
  cases h with
  | fault | starve | halt => exact ⟨rfl, rfl⟩
  | store | input | output | jump | arb => exact absurd hs ht

/-- An instruction that stays in Running has committed. -/
theorem Effect.channelMove {s t : State} {i : Instr} (h : Effect s i t) (hip : 0 ≤ s.ip.toInt)
    (hwf : s.mem.wf = true) (ht : t.runState = .running) : ChannelMove s i t := by
  cases h with
  | fault | starve | halt => cases ht
  | input d o ip x rest queue resolved =>
    rw [resolveF1W_eq hip] at resolved
    obtain rfl := eq_of_faultsOr_eq_ok resolved
    exact .inl ⟨d, x, rfl, queue, Memory.read_write_self hwf .., rfl⟩
  | output a o ip resolved =>
    rw [resolveF1R_eq hip] at resolved
    obtain rfl := eq_of_faultsOr_eq_ok resolved
    exact .inr (.inl ⟨a, rfl, rfl, rfl⟩)
  | store mk a b d o ip v family =>
    obtain ⟨-, harity⟩ := writeMode_arity_of_store family a b d
    exact channelMove_of_noChannel (noChannel_of_arity (by rw [harity]; decide)) rfl rfl
  | jump mk a b o ip family =>
    exact channelMove_of_noChannel (noChannel_of_arity (by rw [arity_of_jump family]; decide)) rfl rfl
  | arb => exact channelMove_of_noChannel ⟨nofun, nofun⟩ rfl rfl

/-- Settles O41: fetch and decode faults leave the queues alone; the rest is the effect of the decoded instruction. -/
theorem channelOrder : Obligations.ChannelOrder := by
  intro s t hwf h
  obtain ⟨hs, ⟨-, rfl⟩ | ⟨-, e, -, rfl⟩ | ⟨hip, i, hi, hexec⟩⟩ := step_eq_next h
  · exact ⟨fun _ => ⟨rfl, rfl⟩, nofun⟩
  · exact ⟨fun _ => ⟨rfl, rfl⟩, nofun⟩
  · rw [instrWord_of_nonneg hip.1] at hi
    have effect := exec_effect hexec
    exact ⟨effect.channels_eq_of_not_running hs, fun ht => ⟨i, hi, effect.channelMove hip.1 hwf ht⟩⟩

end Sys2Proof.Machine
end

section
/-! PROOFS. The statements of spec/30_encoding.md: every word classified by its digits, decoding and encoding agree,
and the legal words counted. -/

namespace Sys2Proof

/-! ## The tables, read in both directions (R85, R86) -/

theorem mem_of_lookup_eq_some {α β : Type} [BEq α] [LawfulBEq α] {l : List (α × β)} {a : α} {b : β}
    (h : l.lookup a = some b) : (a, b) ∈ l := by
  obtain ⟨_, _, hl, -⟩ := List.lookup_eq_some_iff.1 h
  simp [hl]

/-- Looking a number up in the opcode map finds the row it stands in. -/
theorem lookup_opcodeTable {n : Nat} {op : Opcode} :
    opcodeTable.lookup n = some op ↔ (n, op) ∈ opcodeTable := by
  have key : ∀ r ∈ opcodeTable, opcodeTable.lookup r.1 = some r.2 := by decide
  exact ⟨mem_of_lookup_eq_some, key (n, op)⟩

theorem lookup_opcodeTable_none {n : Nat} :
    opcodeTable.lookup n = none ↔ n ∉ [1, 2, 3, 4, 5, 6, 7, 8, 9, 99] := by
  simp [opcodeTable, List.lookup_eq_none_iff]

theorem mem_opcodeTable {n : Nat} {op : Opcode} : (n, op) ∈ opcodeTable ↔ op.number = n := by
  have key : ∀ r ∈ opcodeTable, r.2.number = r.1 := by decide
  refine ⟨key (n, op), ?_⟩
  rintro rfl
  cases op <;> decide

/-- A mode field holds a mode exactly when its digit is that mode's digit. -/
theorem modeField_eq_some {w k : Nat} {m : Mode} : modeField w k = some m ↔ m.digit = digit w (k + 1) := by
  have key : ∀ r ∈ modeTable, r.2.digit = r.1 := by decide
  constructor
  · exact fun h => key (_, m) (mem_of_lookup_eq_some h)
  · intro h
    rw [modeField, ← h]
    cases m <;> rfl

/-- A mode field holds no mode exactly when its digit is 3 to 9 (R90). -/
theorem modeField_eq_none {w k : Nat} : modeField w k = none ↔ 2 < digit w (k + 1) := by
  simp only [modeField, modeTable, List.lookup_eq_none_iff, List.mem_cons, List.not_mem_nil, or_false, bne_iff_ne,
    ne_eq, forall_eq_or_imp, forall_eq]
  omega

theorem Mode.digit_eq_one {m : Mode} : m.digit = 1 ↔ m = .immediate := by
  cases m <;> decide

theorem Instr.modes_length (i : Instr) : i.modes.length = i.opcode.arity := by
  cases i <;> rfl

/-! ## Decoding by the digits of the word (R92) -/

/-- The word has a mode digit above 2 or a surplus digit that is not 0, for an instruction of opcode `op` (R90,
R91). -/
def BadMode (w : Nat) (op : Opcode) : Prop :=
  (∃ k, 1 ≤ k ∧ k ≤ op.arity ∧ 2 < digit w (k + 1)) ∨ w / 10 ^ (op.arity + 2) ≠ 0

/-- The mode digits of instruction `i` are those of the word. -/
def HasModeDigits (i : Instr) (w : Nat) : Prop :=
  i.modes.map Mode.digit = (List.range i.opcode.arity).map (fun k => digit w (k + 2))

/-- What decoding a word of a known opcode answers (R92): InvalidMode for a bad mode, and else the write-target check
of the instruction that has the word's opcode and mode digits. -/
def DecodesByDigits (w : Nat) (op : Opcode) (r : Except DecodeError Instr) : Prop :=
  (BadMode w op ∧ r = .error .invalidMode) ∨
    ∃ i, ¬ BadMode w op ∧ i.opcode = op ∧ HasModeDigits i w ∧ r = checkWriteTarget i

section Formats

variable {w : Nat} {i : Instr}

theorem exists_modeField {op : Opcode} (h : ¬ BadMode w op) {k : Nat} (h1 : 1 ≤ k) (hk : k ≤ op.arity) :
    ∃ m, modeField w k = some m :=
  Option.ne_none_iff_exists'.1 fun hnone => h (.inl ⟨k, h1, hk, modeField_eq_none.1 hnone⟩)

/-- A word whose mode fields hold the modes of `i`: it decodes to `i`, or to a fault of `i`'s own. -/
theorem decodesByDigits_of_fields
    (fields : (List.range i.opcode.arity).map (fun k => modeField w (k + 1)) = i.modes.map some) :
    DecodesByDigits w i.opcode
      (if w / 10 ^ (i.opcode.arity + 2) = 0 then checkWriteTarget i else .error .invalidMode) := by
  split
  · next surplus =>
    refine .inr ⟨i, ?_, rfl, ?_, rfl⟩
    · rintro (⟨k, h1, hk, hbad⟩ | hbad)
      · have hmem : modeField w k ∈ i.modes.map some :=
          fields ▸ List.mem_map.2 ⟨k - 1, List.mem_range.2 (by omega), by rw [Nat.sub_add_cancel h1]⟩
        obtain ⟨m, -, hm⟩ := List.mem_map.1 hmem
        cases hm.trans (modeField_eq_none.2 hbad)
      · exact hbad surplus
    · refine List.ext_getElem (by simp [Instr.modes_length]) fun k h1 h2 => ?_
      have hk := List.getElem_of_eq fields (i := k) (by simpa using h2)
      simp only [List.getElem_map, List.getElem_range] at hk ⊢
      exact modeField_eq_some.1 hk
  · next surplus => exact .inl ⟨.inr surplus, rfl⟩

theorem decodesByDigits_F3 {mk : Mode → Mode → Mode → Instr} {op : Opcode}
    (hop : ∀ a b c, (mk a b c).opcode = op) (harity : op.arity = 3)
    (hmodes : ∀ a b c, (mk a b c).modes = [a, b, c]) :
    DecodesByDigits w op (decodeF3 w mk) := by
  unfold decodeF3
  split
  · next a b c ha hb hc =>
    have key := decodesByDigits_of_fields (w := w) (i := mk a b c)
    rw [hop, hmodes, harity] at key
    exact key (by simp [List.range_succ, ha, hb, hc])
  · next hnone =>
    refine .inl ⟨by_contra fun hbad => ?_, rfl⟩
    obtain ⟨a, ha⟩ := exists_modeField hbad (k := 1) (by omega) (by omega)
    obtain ⟨b, hb⟩ := exists_modeField hbad (k := 2) (by omega) (by omega)
    obtain ⟨c, hc⟩ := exists_modeField hbad (k := 3) (by omega) (by omega)
    exact hnone a b c ha hb hc

theorem decodesByDigits_F2 {mk : Mode → Mode → Instr} {op : Opcode} (hop : ∀ a b, (mk a b).opcode = op)
    (harity : op.arity = 2) (hmodes : ∀ a b, (mk a b).modes = [a, b])
    (hwrite : ∀ a b, checkWriteTarget (mk a b) = .ok (mk a b)) :
    DecodesByDigits w op (decodeF2 w mk) := by
  unfold decodeF2
  split
  · next a b ha hb =>
    have key := decodesByDigits_of_fields (w := w) (i := mk a b)
    rw [hop, hmodes, harity, hwrite] at key
    exact key (by simp [List.range_succ, ha, hb])
  · next hnone =>
    refine .inl ⟨by_contra fun hbad => ?_, rfl⟩
    obtain ⟨a, ha⟩ := exists_modeField hbad (k := 1) (by omega) (by omega)
    obtain ⟨b, hb⟩ := exists_modeField hbad (k := 2) (by omega) (by omega)
    exact hnone a b ha hb

theorem decodesByDigits_F1 {mk : Mode → Instr} {op : Opcode} (hop : ∀ a, (mk a).opcode = op)
    (harity : op.arity = 1) (hmodes : ∀ a, (mk a).modes = [a]) :
    DecodesByDigits w op (decodeF1 w mk) := by
  unfold decodeF1
  split
  · next a ha =>
    have key := decodesByDigits_of_fields (w := w) (i := mk a)
    rw [hop, hmodes, harity] at key
    exact key (by simp [ha])
  · next hnone => exact .inl ⟨.inl ⟨1, le_rfl, harity.ge, modeField_eq_none.1 hnone⟩, rfl⟩

theorem decodesByDigits_F0 : DecodesByDigits w .halt (decodeF0 w .halt) :=
  decodesByDigits_of_fields (i := .halt) rfl

end Formats

/-- A word whose two low digits are a known opcode decodes by its other digits (R92). -/
theorem decodeNat_of_opcode {w : Nat} {op : Opcode} (h : (w % 100, op) ∈ opcodeTable) :
    DecodesByDigits w op (decodeNat w) := by
  unfold decodeNat
  rw [lookup_opcodeTable.2 h]
  cases op with
  | add | mul | lt | eq => exact decodesByDigits_F3 (fun _ _ _ => rfl) rfl fun _ _ _ => rfl
  | jt | jf => exact decodesByDigits_F2 (fun _ _ => rfl) rfl (fun _ _ => rfl) fun _ _ => rfl
  | input | output | arb => exact decodesByDigits_F1 (fun _ => rfl) rfl fun _ => rfl
  | halt => exact decodesByDigits_F0

theorem decodeNat_of_no_opcode {w : Nat} (h : w % 100 ∉ [1, 2, 3, 4, 5, 6, 7, 8, 9, 99]) :
    decodeNat w = .error .invalidOpcode := by
  rw [decodeNat, lookup_opcodeTable_none.2 h]

theorem decode_of_neg {w : Word} (h : w.toInt < 0) : decode w = .error .invalidOpcode := if_pos h

theorem decode_of_toInt {w : Word} {n : Nat} (h : w.toInt = n) : decode w = decodeNat n := by
  rw [decode, if_neg (by omega), h, Int.toNat_natCast]

/-! ## The write operand's digit (R92, class 4) -/

theorem Instr.wellFormed_eq_false {i : Instr} : i.wellFormed = false ↔ i.writeMode = some .immediate := by
  unfold Instr.wellFormed
  split <;> simp [*]

theorem checkWriteTarget_eq_ok {i j : Instr} : checkWriteTarget i = .ok j ↔ i = j ∧ i.wellFormed = true := by
  unfold checkWriteTarget
  split <;> simp [*]

theorem checkWriteTarget_of_immediate {i : Instr} (h : i.wellFormed = false) :
    checkWriteTarget i = .error .invalidWriteTarget := by
  rw [checkWriteTarget, h, if_neg Bool.false_ne_true]

/-- The word's digit for the write operand, operand 3 of ADD, MUL, LT and EQ and operand 1 of IN, is 1. -/
def ImmediateWrite (w : Nat) (op : Opcode) : Prop :=
  (op ∈ [Opcode.add, .mul, .lt, .eq] ∧ digit w 4 = 1) ∨ (op = .input ∧ digit w 2 = 1)

/-- The write operand of an instruction with the word's digits is Immediate exactly when its digit is 1. -/
theorem wellFormed_eq_false_iff {i : Instr} {w : Nat} (h : HasModeDigits i w) :
    i.wellFormed = false ↔ ImmediateWrite w i.opcode := by
  rw [Instr.wellFormed_eq_false]
  cases i with
  | add a b d | mul a b d | lt a b d | eq a b d =>
    have hd : d.digit = digit w 4 := congrArg (·.getD 2 0) h
    simp [Instr.writeMode, Instr.opcode, ImmediateWrite, ← hd, Mode.digit_eq_one]
  | input d =>
    have hd : d.digit = digit w 2 := congrArg (·.getD 0 0) h
    simp [Instr.writeMode, Instr.opcode, ImmediateWrite, ← hd, Mode.digit_eq_one]
  | output | jt | jf | arb | halt => simp [Instr.writeMode, Instr.opcode, ImmediateWrite]

/-- Settles O3: the word's class is what decoding by its digits answers. -/
theorem everyWordIsClassified : Obligations.EveryWordIsClassified := by
  refine fun w => ⟨decode_of_neg, fun n hn => ?_⟩
  rw [decode_of_toInt hn]
  refine ⟨decodeNat_of_no_opcode, fun op hop => ?_⟩
  show (BadMode n op → _) ∧ (¬ BadMode n op → ImmediateWrite n op → _) ∧
    (¬ BadMode n op → ¬ ImmediateWrite n op → _)
  rcases decodeNat_of_opcode hop with ⟨hbad, h⟩ | ⟨i, hgood, rfl, hdigits, h⟩
  · exact ⟨fun _ => h, absurd hbad, absurd hbad⟩
  rw [← wellFormed_eq_false_iff hdigits, h]
  refine ⟨fun hbad => absurd hbad hgood, fun _ hw => checkWriteTarget_of_immediate hw, fun _ hw => ?_⟩
  exact ⟨i, checkWriteTarget_eq_ok.2 ⟨rfl, Bool.not_eq_false _ ▸ hw⟩, rfl, hdigits⟩

/-! ## Decoding against encoding (R81, R96) -/

/-- Mode digits that are the decimal digits of a number with no more of them spell that number. -/
theorem modeDigits_eq {ms : List Mode} {n : Nat}
    (hdigits : ms.map Mode.digit = (List.range ms.length).map (digit n)) (hn : n / 10 ^ ms.length = 0) :
    modeDigits ms = n := by
  induction ms generalizing n with
  | nil => simpa [modeDigits] using hn.symm
  | cons m ms ih =>
    rw [List.length_cons, List.range_succ_eq_map, List.map_cons, List.map_cons, List.map_map] at hdigits
    obtain ⟨hm, hms⟩ := List.cons.inj hdigits
    have hdiv : ∀ k, n / 10 / 10 ^ k = n / 10 ^ (k + 1) := fun k => by
      rw [Nat.div_div_eq_div_mul, pow_succ, mul_comm]
    rw [modeDigits, ih (n := n / 10), hm]
    · simp only [digit, pow_zero, Nat.div_one]
      omega
    · rw [hms]
      simp [digit, hdiv, Function.comp_def]
    · rw [hdiv]; exact hn

/-- An instruction with the word's opcode and mode digits, and no digit above them, is encoded by that word. -/
theorem encodeNat_of_digits {i : Instr} {w : Nat} (hop : (w % 100, i.opcode) ∈ opcodeTable)
    (hgood : ¬ BadMode w i.opcode) (hdigits : HasModeDigits i w) : encodeNat i = w := by
  have hdiv : ∀ k, w / 100 / 10 ^ k = w / 10 ^ (k + 2) := fun k => by
    rw [Nat.div_div_eq_div_mul, add_comm, pow_add]
    norm_num
  have hmodes : modeDigits i.modes = w / 100 := by
    refine modeDigits_eq ?_ ?_
    · rw [hdigits, i.modes_length]
      simp [digit, hdiv]
    · rw [i.modes_length, hdiv]
      exact not_not.1 fun hs => hgood (.inr hs)
  rw [encodeNat, hmodes, mem_opcodeTable.1 hop]
  omega

/-- Decoding the word of a well-formed instruction gives that instruction. -/
theorem decode_encode {i : Instr} (h : i.wellFormed = true) : decode (encode i) = .ok i := by
  cases i with
  | add a b d | mul a b d | lt a b d | eq a b d =>
    cases d with
    | immediate => cases h
    | position | relative => cases a <;> cases b <;> rfl
  | input d =>
    cases d with
    | immediate => cases h
    | position | relative => rfl
  | jt a t | jf a t => cases a <;> cases t <;> rfl
  | output a | arb a => cases a <;> rfl
  | halt => rfl

theorem encode_eq_of_toInt {i : Instr} {w : Word} (h : w.toInt = encodeNat i) : encode i = w := by
  rw [encode, ← BitVec.ofInt_natCast, ← h, BitVec.ofInt_toInt]

/-- A word that decodes is the word of the well-formed instruction it decodes to. -/
theorem decode_eq_ok {w : Word} {i : Instr} (h : decode w = .ok i) : i.wellFormed = true ∧ encode i = w := by
  by_cases hw : w.toInt < 0
  · rw [decode_of_neg hw] at h; cases h
  obtain ⟨n, hn⟩ := Int.eq_ofNat_of_zero_le (not_lt.1 hw)
  rw [decode_of_toInt hn] at h
  cases hop : opcodeTable.lookup (n % 100) with
  | none => rw [decodeNat_of_no_opcode (lookup_opcodeTable_none.1 hop)] at h; cases h
  | some op =>
    rw [lookup_opcodeTable] at hop
    rcases decodeNat_of_opcode hop with ⟨-, hbad⟩ | ⟨j, hgood, rfl, hdigits, hj⟩
    · cases h.symm.trans hbad
    · obtain ⟨rfl, hwf⟩ := checkWriteTarget_eq_ok.1 (hj.symm.trans h)
      exact ⟨hwf, encode_eq_of_toInt (hn.trans (congrArg _ (encodeNat_of_digits hop hgood hdigits).symm))⟩

/-- Settles O2: a word decodes by its digits to the instruction they spell, and the word of an instruction has its
digits. -/
theorem decodeIffEncode : Obligations.DecodeIffEncode := by
  refine fun w i => ⟨decode_eq_ok, ?_⟩
  rintro ⟨hwf, rfl⟩
  exact decode_encode hwf

/-- Settles O1: the decoder evaluated at each word. -/
theorem specWordsDecode : Obligations.SpecWordsDecode := by
  unfold Obligations.SpecWordsDecode
  decide

/-! ## The legal words counted -/

/-- The well-formed instructions with two read operands and a write operand (R87). -/
def storeForms (mk : Mode → Mode → Mode → Instr) : List Instr :=
  [Mode.position, .immediate, .relative].flatMap fun a =>
    [Mode.position, .immediate, .relative].flatMap fun b => [Mode.position, .relative].map (mk a b)

/-- The instructions with two read operands. -/
def jumpForms (mk : Mode → Mode → Instr) : List Instr :=
  [Mode.position, .immediate, .relative].flatMap fun a => [Mode.position, .immediate, .relative].map (mk a)

/-- The well-formed instructions, opcode by opcode. -/
def legalInstrs : List Instr :=
  storeForms .add ++ storeForms .mul ++ [Mode.position, .relative].map .input ++
    [Mode.position, .immediate, .relative].map .output ++ jumpForms .jt ++ jumpForms .jf ++ storeForms .lt ++
    storeForms .eq ++ [Mode.position, .immediate, .relative].map .arb ++ [.halt]

theorem mem_legalInstrs {i : Instr} : i ∈ legalInstrs ↔ i.wellFormed = true := by
  cases i with
  | add a b d | mul a b d | lt a b d | eq a b d => cases a <;> cases b <;> cases d <;> decide
  | input d => cases d <;> decide
  | jt a t | jf a t => cases a <;> cases t <;> decide
  | output a | arb a => cases a <;> decide
  | halt => decide

theorem nodup_legalInstrs : legalInstrs.Nodup := by decide

/-- The words of the well-formed instructions. -/
def legalWords : List Word := legalInstrs.map encode

theorem mem_legalWords {w : Word} : w ∈ legalWords ↔ ∃ i, decode w = .ok i := by
  simp only [legalWords, List.mem_map, mem_legalInstrs]
  exact exists_congr fun i => (decodeIffEncode w i).symm

/-- Different instructions have different words, for the word decodes to its instruction. -/
theorem nodup_legalWords : legalWords.Nodup := by
  refine nodup_legalInstrs.map_on fun i hi j hj h => ?_
  have hdecode := decode_encode (mem_legalInstrs.1 hi)
  rw [h, decode_encode (mem_legalInstrs.1 hj)] at hdecode
  exact (Except.ok.inj hdecode).symm

/-- The legal words of an opcode are as many as its well-formed instructions. -/
theorem length_filter_legalWords (op : Opcode) :
    (legalWords.filter fun w => decide ((decode w).toOption.map Instr.opcode = some op)).length =
      (legalInstrs.filter fun i => decide (i.opcode = op)).length := by
  rw [legalWords, List.filter_map, List.length_map]
  refine congrArg List.length (List.filter_congr fun i hi => ?_)
  simp [decode_encode (mem_legalInstrs.1 hi), Except.toOption]

/-- Settles O4: the legal words are those of the well-formed instructions, which are listed. -/
theorem legalWordsNumberNinetyNine : Obligations.LegalWordsNumberNinetyNine := by
  refine ⟨legalWords, nodup_legalWords, rfl, fun w => mem_legalWords, fun op => ?_⟩
  rw [length_filter_legalWords]
  cases op <;> rfl

end Sys2Proof
end

section
/-! PROOFS. The statements of spec/40_step_and_operands.md sections 1 to 3 and of spec/60_exceptions.md: when a step
is enabled, fetch and decode faults, and that faults and suspensions are precise. -/

namespace Sys2Proof.Machine

/-! ## What a step answers, by what it fetches (R110 to R112) -/

section Fetch

variable {s : State}

theorem step_of_outside (hs : s.runState = .running) (hip : ¬ s.ipInRange) :
    step s = .next (takeFault .ipOutOfRange s) := by
  simp only [step, hs, fetchWord, if_neg hip]

theorem step_of_decode_error (hs : s.runState = .running) (hip : s.ipInRange) {e : DecodeError}
    (he : decode s.instrWord = .error e) : step s = .next (takeFault (decodeFault e) s) := by
  simp only [step, hs, fetchWord, if_pos hip, he]

theorem step_of_decode_ok (hs : s.runState = .running) (hip : s.ipInRange) {i : Instr}
    (hi : decode s.instrWord = .ok i) : step s = exec i s := by
  simp only [step, hs, fetchWord, if_pos hip, hi]

/-- The fetch check fails exactly outside 0 to MLEN - 1 (R111). -/
theorem not_ipInRange_iff : ¬ s.ipInRange ↔ s.ip.toInt < 0 ∨ (s.mlen : Int) ≤ s.ip.toInt := by
  rw [State.ipInRange, not_and_or, not_le, not_lt]

end Fetch

/-- Settles O5: fetch and decode faults are next states, and every instruction answers one. -/
theorem stepAnswersIffRunning : Obligations.StepAnswersIffRunning := by
  refine fun s => ⟨fun ⟨t, h⟩ => (step_eq_next h).1, fun hs => ?_⟩
  by_cases hip : s.ipInRange
  · cases hdecode : decode s.instrWord with
    | error e => exact ⟨_, step_of_decode_error hs hip hdecode⟩
    | ok i => rw [step_of_decode_ok hs hip hdecode]; exact exec_next i s
  · exact ⟨_, step_of_outside hs hip⟩

/-- Settles O6: the case of a legal word of the step's equation. -/
theorem stepRunsTheDecodedInstruction : Obligations.StepRunsTheDecodedInstruction := by
  intro s i hs h0 hlen hi
  rw [← instrWord_of_nonneg h0] at hi
  exact step_of_decode_ok hs ⟨h0, hlen⟩ hi

/-- Settles O7: the case of an IP out of range of the step's equation. -/
theorem fetchOutsideMemoryFaults : Obligations.FetchOutsideMemoryFaults :=
  fun _ hs hip => step_of_outside hs (not_ipInRange_iff.2 hip)

/-- Settles O8: the case of an illegal word of the step's equation. -/
theorem illegalWordFaults : Obligations.IllegalWordFaults := by
  intro s e hs h0 hlen he
  rw [← instrWord_of_nonneg h0] at he ⊢
  rw [step_of_decode_error hs ⟨h0, hlen⟩ he]
  cases e <;> rfl

/-- Settles O9: such a word is InvalidOpcode by its class, and its step is a decode fault. -/
theorem unknownOpcodeFaults : Obligations.UnknownOpcodeFaults := by
  intro s hs h0 hlen hw hop
  obtain ⟨n, hn⟩ := Int.eq_ofNat_of_zero_le hw
  rw [← instrWord_of_nonneg h0] at hn hop
  have he : decode s.instrWord = .error .invalidOpcode := by
    rw [decode_of_toInt hn]
    refine decodeNat_of_no_opcode fun hmem => hop ?_
    rw [hn]
    simp only [List.mem_cons, List.not_mem_nil, or_false] at hmem ⊢
    omega
  exact ⟨_, step_of_decode_error hs ⟨h0, hlen⟩ he, rfl, rfl⟩

/-! ## How a step ends (R127) -/

/-- A step raises a fault, IPOutOfRange exactly when the fetch check fails, or has the effect of the instruction it
decoded. -/
theorem step_faults_or_effect {s t : State} (h : step s = .next t) : s.runState = .running ∧
    ((∃ k, t = takeFault k s ∧ (k = .ipOutOfRange ↔ ¬ s.ipInRange)) ∨
      (s.ipInRange ∧ ∃ i, decode s.instrWord = .ok i ∧ Effect s i t)) := by
  obtain ⟨hs, ⟨hip, rfl⟩ | ⟨hip, e, -, rfl⟩ | ⟨hip, i, hi, hexec⟩⟩ := step_eq_next h
  · exact ⟨hs, .inl ⟨_, rfl, by simp [hip]⟩⟩
  · exact ⟨hs, .inl ⟨_, rfl, by cases e <;> simp [decodeFault, hip]⟩⟩
  · exact ⟨hs, .inr ⟨hip, i, hi, exec_effect hexec⟩⟩

/-- An instruction that ends a Running state in Faulted did so by fault entry, and not with IPOutOfRange (R249). -/
theorem Effect.eq_takeFault {s t : State} {i : Instr} (h : Effect s i t) (hs : s.runState ≠ .faulted)
    (ht : t.runState = .faulted) : ∃ k, t = takeFault k s ∧ (0 ≤ s.ip.toInt → k ≠ .ipOutOfRange) := by
  cases h with
  | fault i k inRange => exact ⟨k, rfl, inRange⟩
  | starve | halt => cases ht
  | store | input | output | jump | arb => exact absurd ht hs

theorem step_eq_takeFault {s t : State} (h : step s = .next t) (ht : t.runState = .faulted) :
    ∃ k, t = takeFault k s ∧ (k = .ipOutOfRange ↔ ¬ s.ipInRange) := by
  obtain ⟨hs, hfault | ⟨hip, i, -, heffect⟩⟩ := step_faults_or_effect h
  · exact hfault
  · obtain ⟨k, rfl, hk⟩ := heffect.eq_takeFault (by rw [hs]; decide) ht
    exact ⟨k, rfl, by simp [hip, hk hip.1]⟩

/-- Settles O10: a step reaches Faulted by fault entry only, which writes the record. -/
theorem faultingStepWritesOnlyTheRecord : Obligations.FaultingStepWritesOnlyTheRecord := by
  intro s t h ht
  obtain ⟨k, rfl, hk⟩ := step_eq_takeFault h ht
  refine ⟨k, ?_, hk.trans not_ipInRange_iff⟩
  by_cases hkind : k = .ipOutOfRange
  · rw [takeFault, if_pos hkind, if_pos hkind]
  · have hip : s.ipInRange := not_not.1 fun hout => hkind (hk.2 hout)
    rw [takeFault, instrWord_of_nonneg hip.1]

/-- A step reaches AwaitingInput by suspension only (R151). -/
theorem step_eq_suspend {s t : State} (h : step s = .next t) (ht : t.runState = .awaitingInput) :
    t = suspend s := by
  obtain ⟨hs, ⟨k, rfl, -⟩ | ⟨-, i, -, heffect⟩⟩ := step_faults_or_effect h
  · cases ht
  · cases heffect with
    | starve => rfl
    | fault | halt => cases ht
    | store | input | output | jump | arb => cases hs.symm.trans ht

theorem resume_suspend {s : State} (hs : s.runState = .running) : resume (suspend s) = .next s := by
  cases s
  cases hs
  rfl

/-- Settles O12: a step reaches AwaitingInput by suspension only, and RESUME undoes it. -/
theorem suspensionIsUndoneByResume : Obligations.SuspensionIsUndoneByResume := by
  intro s t h ht
  obtain rfl := step_eq_suspend h ht
  exact ⟨rfl, resume_suspend (step_eq_next h).1⟩

end Sys2Proof.Machine
end

section
/-! PROOFS. The statements of spec/10_state.md sections 10 and 11: the invariants, which every event keeps, what is
monotone between two STARTs, and the reset values. -/

namespace Sys2Proof.Machine

/-! ## Touched addresses are addresses, so growth keeps MLEN's bound (R38 (b), R50) -/

section Touched

variable {s : State}

/-- An operand cell that was read stands at an address, and so do the instruction's cells before it. -/
theorem instrCells_le {n : Nat} {c : Word} (h : operandCell s n = .ok c) :
    ∀ x ∈ instrCells s n, x ≤ Config.addrMax := by
  have hn : fits (s.ip.toInt + n) := by
    unfold operandCell cellAt at h
    split at h
    · cases h
    · split at h
      · assumption
      · cases h
  intro x hx
  obtain ⟨k, hk, rfl⟩ := mem_instrCells.1 hx
  exact le_trans (by omega) hn.2

theorem readOperand_touched_le {m : Mode} {r : Word} {o : ReadOperand} (h : readOperand s m r = .ok o) :
    ∀ x ∈ o.touched, x ≤ Config.addrMax := by
  cases m with
  | immediate => cases h; simp
  | position | relative =>
    obtain ⟨a, ha, h⟩ := bind_eq_ok h
    cases h
    simpa using effectiveAddress_le ha

theorem resolveF3_touched_le {a b d : Mode} {o : OperandsF3} (h : resolveF3 s a b d = .ok o) :
    ∀ x ∈ o.touched, x ≤ Config.addrMax := by
  obtain ⟨_, -, h⟩ := bind_eq_ok h
  obtain ⟨_, -, h⟩ := bind_eq_ok h
  obtain ⟨_, -, h⟩ := bind_eq_ok h
  obtain ⟨_, hcell, h⟩ := bind_eq_ok h
  obtain ⟨_, ha, h⟩ := bind_eq_ok h
  obtain ⟨_, hb, h⟩ := bind_eq_ok h
  obtain ⟨_, hd, h⟩ := bind_eq_ok h
  cases h
  simp only [List.forall_mem_append, List.forall_mem_singleton]
  exact ⟨⟨⟨instrCells_le hcell, readOperand_touched_le ha⟩, readOperand_touched_le hb⟩,
    Int.ofNat_le.2 (effectiveAddress_le hd)⟩

theorem resolveF2_touched_le {a b : Mode} {o : OperandsF2} (h : resolveF2 s a b = .ok o) :
    ∀ x ∈ o.touched, x ≤ Config.addrMax := by
  obtain ⟨_, -, h⟩ := bind_eq_ok h
  obtain ⟨_, hcell, h⟩ := bind_eq_ok h
  obtain ⟨_, ha, h⟩ := bind_eq_ok h
  obtain ⟨_, hb, h⟩ := bind_eq_ok h
  cases h
  simp only [List.forall_mem_append]
  exact ⟨⟨instrCells_le hcell, readOperand_touched_le ha⟩, readOperand_touched_le hb⟩

theorem resolveF1R_touched_le {a : Mode} {o : OperandsF1R} (h : resolveF1R s a = .ok o) :
    ∀ x ∈ o.touched, x ≤ Config.addrMax := by
  obtain ⟨_, hcell, h⟩ := bind_eq_ok h
  obtain ⟨_, ha, h⟩ := bind_eq_ok h
  cases h
  simp only [List.forall_mem_append]
  exact ⟨instrCells_le hcell, readOperand_touched_le ha⟩

theorem resolveF1W_touched_le {d : Mode} {o : OperandsF1W} (h : resolveF1W s d = .ok o) :
    ∀ x ∈ o.touched, x ≤ Config.addrMax := by
  obtain ⟨_, -, h⟩ := bind_eq_ok h
  obtain ⟨_, hcell, h⟩ := bind_eq_ok h
  obtain ⟨_, hd, h⟩ := bind_eq_ok h
  cases h
  simp only [List.forall_mem_append, List.forall_mem_singleton]
  exact ⟨instrCells_le hcell, Int.ofNat_le.2 (effectiveAddress_le hd)⟩

end Touched

section Effects

variable {s t : State} {i : Instr}

/-- An instruction leaves MLEN alone or grows it over addresses (R55). -/
theorem Effect.mlen_eq_or_grow (h : Effect s i t) :
    t.mlen = s.mlen ∨ ∃ T, t.mlen = grow s.mlen T ∧ ∀ x ∈ T, x ≤ Config.addrMax := by
  cases h with
  | fault | starve | halt => exact .inl rfl
  | store mk a b d o ip v family resolved => exact .inr ⟨o.touched, rfl, resolveF3_touched_le resolved⟩
  | input d o ip x rest queue resolved => exact .inr ⟨o.touched, rfl, resolveF1W_touched_le resolved⟩
  | output a o ip resolved => exact .inr ⟨o.touched, rfl, resolveF1R_touched_le resolved⟩
  | jump mk a b o ip family resolved => exact .inr ⟨o.touched, rfl, resolveF2_touched_le resolved⟩
  | arb a o rb ip resolved => exact .inr ⟨o.touched, rfl, resolveF1R_touched_le resolved⟩

theorem Effect.mlen_le (h : Effect s i t) : s.mlen ≤ t.mlen := by
  rcases h.mlen_eq_or_grow with hlen | ⟨T, hlen, -⟩
  · exact hlen.ge
  · exact hlen ▸ le_grow _ _

theorem Effect.mlenBound (h : Effect s i t) (hs : s.mlen ≤ Config.addrMax + 1) :
    t.mlen ≤ Config.addrMax + 1 := by
  rcases h.mlen_eq_or_grow with hlen | ⟨T, hlen, hT⟩
  · exact hlen ▸ hs
  · exact hlen ▸ grow_le hs fun x hx => Int.lt_add_one_of_le (hT x hx)

/-- Memory that covered its listed cells still does after an instruction, the cell written included (R38 (c)). -/
theorem Effect.listedBelow (h : Effect s i t) (hs : ∀ c ∈ s.mem, c.1 < s.mlen) : ∀ c ∈ t.mem, c.1 < t.mlen := by
  intro c hc
  have hold : c ∈ s.mem → c.1 < t.mlen := fun hmem => lt_of_lt_of_le (hs c hmem) h.mlen_le
  rcases h.mem_eq_or_writes with hmem | ⟨d, a, v, -, -, hlt, hmem⟩
  · exact hold (hmem ▸ hc)
  · rw [hmem] at hc
    rcases Memory.mem_write hc with rfl | hc
    · exact hlt
    · exact hold hc

theorem Effect.memWf (h : Effect s i t) (hs : s.mem.wf = true) : t.mem.wf = true := by
  rcases h.mem_eq_or_writes with hmem | ⟨d, a, v, -, -, -, hmem⟩
  · exact hmem ▸ hs
  · exact hmem ▸ Memory.wf_write hs a v

/-- An instruction that does not fault leaves the fault record alone. -/
theorem Effect.faultKind_eq (h : Effect s i t) (ht : t.runState ≠ .faulted) : t.faultKind = s.faultKind := by
  cases h with
  | fault => exact absurd rfl ht
  | store | input | starve | output | jump | arb | halt => rfl

end Effects

/-! ## Every event keeps the invariants (R38) -/

section Invariants

variable {s t : State}

/-- Fault entry writes a record that meets the invariants. -/
theorem inv_takeFault (hs : s.Inv) (k : FaultKind) : (takeFault k s).Inv where
  memWf := hs.memWf
  listedBelow := hs.listedBelow
  mlenBound := hs.mlenBound
  faultRecorded := by simp
  faultAtIp := fun _ => rfl

theorem Effect.inv {i : Instr} (h : Effect s i t) (hs : s.Inv) (hrun : s.runState = .running) : t.Inv := by
  by_cases ht : t.runState = .faulted
  · obtain ⟨k, rfl, -⟩ := h.eq_takeFault (by rw [hrun]; decide) ht
    exact inv_takeFault hs k
  · exact {
      memWf := h.memWf hs.memWf
      listedBelow := h.listedBelow hs.listedBelow
      mlenBound := h.mlenBound hs.mlenBound
      faultRecorded := by
        have hnone : s.faultKind = none := hs.faultRecorded.2 (by rw [hrun]; decide)
        simp [h.faultKind_eq ht, hnone, ht]
      faultAtIp := fun hfault => absurd hfault ht }

/-- Settles O33: fault entry keeps the invariants, and so does the effect of every instruction. -/
theorem stepKeepsInvariants : Obligations.StepKeepsInvariants := by
  intro s t hs h
  obtain ⟨hrun, ⟨k, rfl, -⟩ | ⟨-, i, -, heffect⟩⟩ := step_faults_or_effect h
  · exact inv_takeFault hs k
  · exact heffect.inv hs hrun

/-- START gives a state that meets the invariants, whatever stood before. -/
theorem inv_startState {image : List Word} (h : image.length ≤ Config.addrMax + 1) (mode : RunMode)
    (q0 : List Word) : (startState image mode q0).Inv where
  memWf := Memory.wf_loadFrom 0 image
  listedBelow := fun c hc => by
    obtain ⟨-, hlt⟩ := Memory.mem_loadFrom hc
    rwa [Nat.zero_add] at hlt
  mlenBound := h
  faultRecorded := by simp [startState]
  faultAtIp := nofun

theorem inv_start {image q0 : List Int} {mode : RunMode} (h : start image mode q0 = .next t) : t.Inv := by
  obtain ⟨im, q, -, -, hlen, rfl⟩ := start_eq_next h
  exact inv_startState hlen mode q

/-- Settles O32: State.reset is an empty START. -/
theorem resetMeetsInvariants : Obligations.ResetMeetsInvariants :=
  inv_startState (image := []) (Nat.zero_le _) .oneShot []

theorem inv_resume (hs : s.Inv) (h : resume s = .next t) : t.Inv := by
  obtain ⟨hwait, rfl⟩ := resume_eq_next h
  exact {
    memWf := hs.memWf
    listedBelow := hs.listedBelow
    mlenBound := hs.mlenBound
    faultRecorded := by simp [hs.faultRecorded, hwait]
    faultAtIp := nofun }

theorem inv_enqueue {v : Int} (hs : s.Inv) (h : enqueue v s = .next t) : t.Inv := by
  obtain ⟨-, x, -, rfl⟩ := enqueue_eq_next h
  obtain ⟨memWf, listedBelow, mlenBound, faultRecorded, faultAtIp⟩ := hs
  exact ⟨memWf, listedBelow, mlenBound, faultRecorded, faultAtIp⟩

/-- Settles O46: START makes the invariants hold, and a step and every other transaction keep them. -/
theorem eventsKeepInvariants : Obligations.EventsKeepInvariants := by
  intro e s t hs h
  match e with
  | .step => exact stepKeepsInvariants s t hs h
  | .host (.start _ _ _) => exact inv_start h
  | .host (.enqueue _) => exact inv_enqueue hs h
  | .host .resume => exact inv_resume hs h
  | .host .observe => cases h; exact hs
  | .host .readMemory => rwa [transact_readMemory_eq h]

theorem Reachable.inv (h : Reachable s) : s.Inv := by
  induction h with
  | start image mode q0 s h => exact inv_start h
  | act e s t _ h ih => exact eventsKeepInvariants e s t ih h

/-- A memory whose listed cells are below MLEN reads 0 at and above it (R38 (c)). -/
theorem State.Inv.read_eq_zero (hs : s.Inv) {a : Nat} (ha : s.mlen ≤ a) : s.mem.read a = 0 :=
  Memory.read_eq_zero_of_below fun c hc => lt_of_lt_of_le (hs.listedBelow c hc) ha

/-- Settles O34: the invariants hold after START and every event keeps them. -/
theorem reachableStatesMeetInvariants : Obligations.ReachableStatesMeetInvariants :=
  fun _ h => ⟨h.inv, fun _ => h.inv.read_eq_zero⟩

end Invariants

/-! ## What is monotone between two STARTs (R38 (d), R38 (g), R208) -/

section Monotone

variable {s t : State}

/-- The order of R38 on two states of one computation: MLEN has not decreased, OUT only grew at its end, and MODE is
the same. -/
def Follows (s t : State) : Prop := s.mlen ≤ t.mlen ∧ s.out <+: t.out ∧ t.mode = s.mode

theorem Effect.follows {i : Instr} (h : Effect s i t) : Follows s t := by
  refine ⟨h.mlen_le, ?out, ?mode⟩
  case out =>
    cases h with
    | output => exact List.prefix_append _ _
    | fault | store | input | starve | jump | arb | halt => exact List.prefix_rfl
  case mode =>
    cases h with
    | fault | store | input | starve | output | jump | arb | halt => rfl

theorem step_follows (h : step s = .next t) : Follows s t := by
  obtain ⟨-, ⟨k, rfl, -⟩ | ⟨-, i, -, heffect⟩⟩ := step_faults_or_effect h
  · exact ⟨le_rfl, List.prefix_rfl, rfl⟩
  · exact heffect.follows

/-- Settles O35: a step by its effect; a transaction but START reaches none of the three. -/
theorem monotoneBetweenResets : Obligations.MonotoneBetweenResets := by
  intro e s t hstart h
  show Follows s t
  match e with
  | .step => exact step_follows h
  | .host (.start im m q) => exact absurd rfl (hstart im m q)
  | .host (.enqueue _) =>
    obtain ⟨-, x, -, rfl⟩ := enqueue_eq_next h
    exact ⟨le_rfl, List.prefix_rfl, rfl⟩
  | .host .resume =>
    obtain ⟨-, rfl⟩ := resume_eq_next h
    exact ⟨le_rfl, List.prefix_rfl, rfl⟩
  | .host .observe => cases h; exact ⟨le_rfl, List.prefix_rfl, rfl⟩
  | .host .readMemory =>
    obtain rfl := transact_readMemory_eq h
    exact ⟨le_rfl, List.prefix_rfl, rfl⟩

end Monotone

end Sys2Proof.Machine
end

section
/-! PROOFS. The statements of spec/40_step_and_operands.md section 5 and of the ten instructions: each instruction
raises the first fault of its list, and with none completes with the state its rule gives. -/

namespace Sys2Proof.Machine

/-! ## Relative mode (R117) -/

/-- Settles O14: the three outcomes of the test of the exact sum. -/
theorem relativeOperand : Obligations.RelativeOperand := by
  refine fun s r => ⟨fun hout => ?_, fun hfits hneg => ?_, fun hfits hnonneg => ?_⟩
  · have he : effectiveAddress s .relative r = .error .arithmeticOverflow := if_neg hout
    exact ⟨readOperand_of_address_error (by decide) he, he⟩
  · have he : effectiveAddress s .relative r = .error .negativeAddress := checkAddress_of_neg hfits hneg
    exact ⟨readOperand_of_address_error (by decide) he, he⟩
  · have he : effectiveAddress s .relative r = .ok (r.toInt + s.rb.toInt).toNat :=
      checkAddress_of_nonneg hfits hnonneg
    exact ⟨by rw [readOperand_of_address_ok (by decide) he, Int.toNat_of_nonneg hnonneg], he⟩

/-! ## An instruction as its list of faults and the state it completes in (R127, R248) -/

/-- Instruction `i` in state `s` raises the first fault of `faults`, or with none answers `t`. -/
def Runs (i : Instr) (s : State) (faults : List (Bool × FaultKind)) (t : State) : Prop :=
  (firstFault faults = none → exec i s = .next t) ∧
    ∀ k, firstFault faults = some k → exec i s = .next (takeFault k s)

theorem runs_of_complete {i : Instr} {s t : State} {faults : List (Bool × FaultKind)}
    {r : Except FaultKind State} (hexec : exec i s = complete s r) (hr : r = faultsOr faults t) :
    Runs i s faults t := by
  rw [Runs, hexec, hr]
  exact ⟨fun h => by rw [faultsOr_none h, complete_ok], fun k h => by rw [faultsOr_some h, complete_error]⟩

/-- The advance of IP as an instruction's last check (R122): its one fault, or the state with the new IP. -/
theorem nextIp_bind_eq (s : State) (n : Nat) (g : Word → State) :
    (nextIp s n >>= fun ip => .ok (g ip)) =
      faultsOr (rangeFaults (s.ip.toInt + n)) (g (Word.ofInt (s.ip.toInt + n))) := by
  rw [nextIp_eq, ← List.append_nil (rangeFaults _)]
  exact faultsOr_bind _ _ _ _ _ fun _ => rfl

section Families

variable {s : State} {i : Instr} (h : 0 ≤ s.ip.toInt)
include h

/-- An instruction that stores `f` of its two values: the faults of its operands, of `f`, and of the new IP. -/
theorem runs_store {a b d : Mode} {f : Word → Word → Except FaultKind Word} {l : List (Bool × FaultKind)}
    {v : Word}
    (hexec : exec i s = complete s (do
      let o ← resolveF3 s a b d
      let v ← f o.a o.b
      let ip ← nextIp s 4
      .ok (commitStore s ip o.touched o.dst v)))
    (hf : f (operandValue s a 1) (operandValue s b 2) = faultsOr l v) :
    Runs i s (writeFaults d ++ cellFaults s 3 ++ operandFaults s a 1 ++ operandFaults s b 2 ++ operandFaults s d 3 ++
        l ++ rangeFaults (s.ip.toInt + 4))
      (commitStore s (Word.ofInt (s.ip.toInt + 4)) (instrCells s 3 ++ operandTouched s a 1 ++ operandTouched s b 2 ++
        [operandAddress s d 3]) (operandAddress s d 3).toNat v) := by
  have hfaults : writeFaults d ++ cellFaults s 3 ++ operandFaults s a 1 ++ operandFaults s b 2 ++
      operandFaults s d 3 ++ l ++ rangeFaults (s.ip.toInt + 4) =
      faultsF3 s a b d ++ (l ++ rangeFaults (s.ip.toInt + 4)) := by
    simp only [faultsF3, List.append_assoc]
  rw [hfaults]
  refine runs_of_complete hexec ?_
  rw [resolveF3_eq h]
  refine faultsOr_bind _ _ _ _ _ fun _ => ?_
  dsimp only
  rw [hf]
  exact faultsOr_bind _ _ _ _ _ fun _ => nextIp_bind_eq ..

/-- A jump whose test of the first value is `taken`: both operands are resolved, and IP + 3 is tested only if the jump
is not taken. -/
theorem runs_jump {a t : Mode} {test : Word → Bool} {taken : Prop} [Decidable taken]
    (hexec : exec i s = complete s (do
      let o ← resolveF2 s a t
      let ip ← jumpIp s (test o.a) o.target
      .ok (commit s ip o.touched)))
    (htest : test (operandValue s a 1) = decide taken) :
    Runs i s (cellFaults s 2 ++ operandFaults s a 1 ++ operandFaults s t 2 ++
        (if taken then [] else rangeFaults (s.ip.toInt + 3)))
      (commit s (if taken then operandValue s t 2 else Word.ofInt (s.ip.toInt + 3))
        (instrCells s 2 ++ operandTouched s a 1 ++ operandTouched s t 2)) := by
  have hfaults : cellFaults s 2 ++ operandFaults s a 1 ++ operandFaults s t 2 = faultsF2 s a t := by
    simp only [faultsF2, List.append_assoc]
  rw [hfaults]
  refine runs_of_complete hexec ?_
  rw [resolveF2_eq h]
  refine faultsOr_bind _ _ _ _ _ fun _ => ?_
  simp only [htest, jumpIp, decide_eq_true_eq]
  split
  · rfl
  · exact nextIp_bind_eq ..

/-- OUT and ARB: `rest` is what remains after the operand is resolved. -/
theorem runs_read {a : Mode} {rest : OperandsF1R → Except FaultKind State} {l : List (Bool × FaultKind)} {t : State}
    (hexec : exec i s = complete s (resolveF1R s a >>= rest))
    (hrest : rest ⟨operandValue s a 1, instrCells s 1 ++ operandTouched s a 1⟩ = faultsOr l t) :
    Runs i s (cellFaults s 1 ++ operandFaults s a 1 ++ l) t := by
  refine runs_of_complete hexec ?_
  rw [resolveF1R_eq h]
  exact faultsOr_bind _ _ _ _ _ fun _ => hrest

end Families

/-! ## ADD, MUL, LT, EQ (R140, R141, R170, R171) -/

/-- Settles O16: ADD stores the sum, whose one fault is its range. -/
theorem addRule : Obligations.AddRule :=
  fun _ _ _ _ h => runs_store h (f := fun x y => narrow (x.toInt + y.toInt)) rfl (narrow_eq _)

/-- Settles O17: MUL stores the product, whose one fault is its range. -/
theorem mulRule : Obligations.MulRule :=
  fun _ _ _ _ h => runs_store h (f := fun x y => narrow (x.toInt * y.toInt)) rfl (narrow_eq _)

/-- Settles O18: LT stores the truth value of the comparison, which has no fault. -/
theorem ltRule : Obligations.LtRule := by
  intro s a b d h
  have key := runs_store h (i := .lt a b d) (f := fun x y => .ok (truthValue (isLess x y))) rfl (faultsOr_nil _).symm
  simp only [List.append_nil, truthValue, isLess, decide_eq_true_eq] at key
  exact key

/-- Settles O19: EQ stores the truth value of the equality, which has no fault. -/
theorem eqRule : Obligations.EqRule := by
  intro s a b d h
  have key := runs_store h (i := .eq a b d) (f := fun x y => .ok (truthValue (isEqual x y))) rfl (faultsOr_nil _).symm
  simp only [List.append_nil, truthValue, isEqual, decide_eq_true_eq, Word.toInt_inj] at key
  exact key

/-! ## JT and JF (R160, R161) -/

/-- Settles O22: JT's test is that the value is not 0. -/
theorem jumpIfTrueRule : Obligations.JumpIfTrueRule :=
  fun _ _ _ h => runs_jump h (test := isNonZero) rfl rfl

/-- Settles O23: JF's test is that the value is 0. -/
theorem jumpIfFalseRule : Obligations.JumpIfFalseRule :=
  fun _ _ _ h => runs_jump h (test := fun x => !isNonZero x) rfl (by simp [isNonZero])

/-! ## OUT, ARB and HALT (R152, R180, R190) -/

/-- Settles O21: after its operand OUT has only the range of the new IP to test. -/
theorem outputRule : Obligations.OutputRule :=
  fun _ _ h => runs_read h rfl (nextIp_bind_eq ..)

/-- Settles O24: after its operand ARB tests the range of the sum and then of the new IP. -/
theorem adjustRelativeBaseRule : Obligations.AdjustRelativeBaseRule := by
  intro s a h v
  rw [List.append_assoc (cellFaults s 1 ++ _)]
  refine runs_read h rfl ?_
  rw [narrow_eq]
  exact faultsOr_bind _ _ _ _ _ fun _ => nextIp_bind_eq ..

/-- Settles O25: HALT's definition. -/
theorem haltRule : Obligations.HaltRule := fun _ => rfl

/-! ## IN (R150, R151) -/

/-- The queue is tested last: with INQ empty, One-shot mode has one more fault and Cooperative mode suspends. -/
theorem takeInput_nil {s : State} (hq : s.inq = []) (ip : Word) (o : OperandsF1W) :
    takeInput s ip o =
      faultsOr [(decide (s.inq = [] ∧ s.mode = .oneShot), FaultKind.inputExhausted)] (suspend s) := by
  rw [takeInput, hq]
  cases hm : s.mode <;> simp [starved, hm, faultsOr, firstFault]

theorem takeInput_cons {s : State} {x : Word} {rest : List Word} (hq : s.inq = x :: rest) (ip : Word)
    (o : OperandsF1W) : takeInput s ip o =
      faultsOr [(decide (s.inq = [] ∧ s.mode = .oneShot), FaultKind.inputExhausted)]
        { commitStore s ip o.touched o.dst x with inq := rest } := by
  rw [takeInput, hq]
  simp [faultsOr, firstFault]

theorem runs_input {s t : State} (h : 0 ≤ s.ip.toInt) {d : Mode} {l : List (Bool × FaultKind)}
    (htake : takeInput s (Word.ofInt (s.ip.toInt + 2))
      ⟨(operandAddress s d 1).toNat, instrCells s 1 ++ [operandAddress s d 1]⟩ = faultsOr l t) :
    Runs (.input d) s (writeFaults d ++ cellFaults s 1 ++ operandFaults s d 1 ++ rangeFaults (s.ip.toInt + 2) ++ l)
      t := by
  have hfaults : writeFaults d ++ cellFaults s 1 ++ operandFaults s d 1 ++ rangeFaults (s.ip.toInt + 2) ++ l =
      faultsF1W s d ++ (rangeFaults (s.ip.toInt + 2) ++ l) := by
    simp only [faultsF1W, List.append_assoc]
  rw [hfaults]
  refine runs_of_complete rfl ?_
  rw [resolveF1W_eq h]
  refine faultsOr_bind _ _ _ _ _ fun _ => ?_
  rw [nextIp_eq]
  exact faultsOr_bind _ _ _ _ _ fun _ => htake

/-- Settles O20: by whether INQ is empty, which its last test and its result turn on. -/
theorem inputRule : Obligations.InputRule := by
  intro s d h
  refine ⟨fun hf => ⟨fun x rest hq => ?_, fun hq => ?_⟩, fun k hk => ?_⟩
  · exact (runs_input h (takeInput_cons hq ..)).1 hf
  · exact (runs_input h (takeInput_nil hq ..)).1 hf
  · cases hq : s.inq with
    | nil => exact (runs_input h (takeInput_nil hq ..)).2 k hk
    | cons x rest => exact (runs_input h (takeInput_cons hq ..)).2 k hk

end Sys2Proof.Machine
end

section
/-! PROOFS. The frames of the instructions (spec/41_arithmetic.md to spec/46_halt.md), the sequence of IP (R122), and
the growth of MLEN (spec/20_memory.md section 2). -/

namespace Sys2Proof.Machine

/-! ## Frames -/

section Frames

variable {s t : State} {i : Instr}

/-- STATE after an instruction: as it was, or Faulted, or Halted by HALT, or AwaitingInput by an IN that starves. -/
theorem Effect.runState_cases (h : Effect s i t) :
    (t.runState = s.runState ∧ i ≠ .halt) ∨ t.runState = .faulted ∨ (i = .halt ∧ t.runState = .halted) ∨
      ∃ d, i = .input d ∧ s.inq = [] ∧ t = suspend s := by
  cases h with
  | fault => exact .inr (.inl rfl)
  | halt => exact .inr (.inr (.inl ⟨rfl, rfl⟩))
  | starve d queue => exact .inr (.inr (.inr ⟨d, rfl, queue, rfl⟩))
  | input | output | arb => exact .inl ⟨rfl, nofun⟩
  | store mk a b d o ip v family =>
    obtain ⟨-, harity⟩ := writeMode_arity_of_store family a b d
    exact .inl ⟨rfl, fun hhalt => by cases hhalt ▸ harity⟩
  | jump mk a b o ip family => exact .inl ⟨rfl, fun hhalt => by cases hhalt ▸ arity_of_jump family a b⟩

theorem Effect.faultRecord_eq (h : Effect s i t) :
    (t.faultKind = s.faultKind ∧ t.faultIp = s.faultIp ∧ t.faultInsn = s.faultInsn) ∨ t.runState = .faulted := by
  cases h with
  | fault => exact .inr rfl
  | store | input | starve | output | jump | arb | halt => exact .inl ⟨rfl, rfl, rfl⟩

/-- Only IN takes from INQ, and it takes the front value (R150). -/
theorem Effect.inq_cases (h : Effect s i t) : t.inq = s.inq ∨ ∃ d x, i = .input d ∧ s.inq = x :: t.inq := by
  cases h with
  | input d o ip x rest queue => exact .inr ⟨d, x, rfl, queue⟩
  | fault | store | starve | output | jump | arb | halt => exact .inl rfl

theorem Effect.out_eq (h : Effect s i t) (hi : ∀ a, i ≠ .output a) : t.out = s.out := by
  cases h with
  | output a => exact absurd rfl (hi a)
  | fault | store | input | starve | jump | arb | halt => rfl

/-- An instruction without a write operand leaves memory alone. -/
theorem Effect.mem_eq (h : Effect s i t) (hi : i.writeMode = none) : t.mem = s.mem := by
  rcases h.mem_eq_or_writes with hmem | ⟨d, a, v, hd, -⟩
  · exact hmem
  · cases hi.symm.trans hd

theorem halt_frame (h : exec .halt s = .next t) : t.ip = s.ip ∧ t.mlen = s.mlen := by
  cases h
  exact ⟨rfl, rfl⟩

/-- Settles O26: each item by what effects reach it. -/
theorem nonStoringFrame : Obligations.NonStoringFrame := by
  intro i s t hi h
  have heffect := exec_effect h
  have notInput : ∀ d, i ≠ .input d := by rintro d rfl; cases hi
  obtain ⟨-, -, hmode⟩ := heffect.follows
  refine ⟨fun x => by rw [heffect.mem_eq hi], hmode, ?inq, heffect.rb_eq, heffect.out_eq, ?halt, ?runState,
    heffect.faultRecord_eq⟩
  case inq =>
    rcases heffect.inq_cases with hinq | ⟨d, x, hd, -⟩
    · exact hinq
    · exact absurd hd (notInput d)
  case halt => rintro rfl; exact halt_frame h
  case runState =>
    rcases heffect.runState_cases with hsame | hfault | hhalt | ⟨d, hd, -⟩
    · exact .inl hsame
    · exact .inr (.inl hfault)
    · exact .inr (.inr hhalt)
    · exact absurd hd (notInput d)

/-- IN's operand is its write operand. -/
theorem writeMode_of_input {d d' : Mode} (h : i.writeMode = some d) (hi : i = .input d') : i = .input d := by
  subst hi
  cases h
  rfl

/-- Settles O27: memory by the one write of an effect, the other items by what effects reach them. -/
theorem storingFrame : Obligations.StoringFrame := by
  intro i d s t hi h
  have heffect := exec_effect h
  obtain ⟨-, -, hmode⟩ := heffect.follows
  refine ⟨?other, ?noAddress, ?fault, heffect.rb_eq ?notArb, hmode, heffect.out_eq ?notOutput, ?inq, ?runState,
    heffect.faultRecord_eq⟩
  case other =>
    intro a ha x hx
    rcases heffect.mem_eq_or_writes with hmem | ⟨d', a', v, hd', ha', -, hmem⟩
    · rw [hmem]
    · obtain rfl := Option.some.inj (hi.symm.trans hd')
      obtain rfl := Except.ok.inj (ha.symm.trans ha')
      rw [hmem, Memory.read_write_other _ _ hx]
  case noAddress =>
    intro k hk x
    rcases heffect.mem_eq_or_writes with hmem | ⟨d', a', v, hd', ha', -⟩
    · rw [hmem]
    · obtain rfl := Option.some.inj (hi.symm.trans hd')
      cases hk.symm.trans ha'
  case fault =>
    intro ht hs x
    obtain ⟨k, rfl, -⟩ := heffect.eq_takeFault hs ht
    rw [takeFault_mem]
  case notArb => rintro a rfl; cases hi
  case notOutput => rintro a rfl; cases hi
  case inq => exact heffect.inq_cases.imp_right fun ⟨d', x, hd', hx⟩ => ⟨x, writeMode_of_input hi hd', hx⟩
  case runState =>
    rcases heffect.runState_cases with ⟨hsame, -⟩ | hfault | ⟨rfl, -⟩ | ⟨d', hd', hq, ht⟩
    · exact .inl hsame
    · exact .inr (.inl hfault)
    · cases hi
    · exact .inr (.inr ⟨writeMode_of_input hi hd', hq, ht⟩)

end Frames

/-! ## The sequence of IP (R122) -/

theorem nextIp_eq_ok {s : State} {n : Nat} {ip : Word} (h : nextIp s n = .ok ip) :
    ip.toInt = s.ip.toInt + n := narrow_eq_ok h

/-- An instruction but a jump leaves IP alone or advances it by the instruction's width. -/
theorem Effect.ip_cases {s t : State} {i : Instr} (h : Effect s i t) (hjt : ∀ a b, i ≠ .jt a b)
    (hjf : ∀ a b, i ≠ .jf a b) : t.ip = s.ip ∨ t.ip.toInt = s.ip.toInt + i.width := by
  cases h with
  | fault | starve | halt => exact .inl rfl
  | store mk a b d o ip v family resolved next =>
    obtain ⟨-, harity⟩ := writeMode_arity_of_store family a b d
    rw [Instr.width, harity]
    exact .inr (nextIp_eq_ok next)
  | input d o ip x rest queue resolved next => exact .inr (nextIp_eq_ok next)
  | output a o ip resolved next => exact .inr (nextIp_eq_ok next)
  | arb a o rb ip resolved sum next => exact .inr (nextIp_eq_ok next)
  | jump mk a b o ip family =>
    simp only [List.mem_cons, List.not_mem_nil, or_false] at family
    rcases family with rfl | rfl
    · exact absurd rfl (hjt a b)
    · exact absurd rfl (hjf a b)

/-- Settles O30: by the effect of the instruction. -/
theorem onlyJumpsLeaveTheSequence : Obligations.OnlyJumpsLeaveTheSequence :=
  fun _ _ _ h hjt hjf => (exec_effect h).ip_cases hjt hjf

/-! ## Growth (R55, R56) -/

/-- The addresses instruction `i` touches from state `s`: IP, its operand cells, and the address of each operand that
is not Immediate. -/
def Touches (s : State) (i : Instr) (x : Int) : Prop :=
  (∃ k : Nat, k ≤ i.modes.length ∧ x = s.ip.toInt + k) ∨
    ∃ (k : Nat) (m : Mode), i.modes[k]? = some m ∧ m ≠ .immediate ∧ x = operandAddress s m (k + 1)

/-- The data addresses of operands k + 1 and above, whose modes are `ms`. -/
def dataTouched (s : State) : Nat → List Mode → List Int
  | _, [] => []
  | k, m :: ms => operandTouched s m (k + 1) ++ dataTouched s (k + 1) ms

theorem mem_dataTouched {s : State} {ms : List Mode} {j : Nat} {x : Int} : x ∈ dataTouched s j ms ↔
    ∃ (k : Nat) (m : Mode), ms[k]? = some m ∧ m ≠ .immediate ∧ x = operandAddress s m (j + k + 1) := by
  induction ms generalizing j with
  | nil => simp [dataTouched]
  | cons m ms ih =>
    rw [dataTouched, List.mem_append, ih, mem_operandTouched]
    constructor
    · rintro (⟨hm, hx⟩ | ⟨k, m', hk, hm', hx⟩)
      · exact ⟨0, m, rfl, hm, hx⟩
      · exact ⟨k + 1, m', hk, hm', hx.trans (by congr 1; omega)⟩
    · rintro ⟨_ | k, m', hk, hm', hx⟩
      · cases hk
        exact .inl ⟨hm', hx⟩
      · exact .inr ⟨k, m', hk, hm', hx.trans (by congr 1; omega)⟩

theorem touches_iff_mem {s : State} {i : Instr} {x : Int} :
    Touches s i x ↔ x ∈ instrCells s i.modes.length ++ dataTouched s 0 i.modes := by
  rw [List.mem_append, mem_instrCells, mem_dataTouched, Touches]
  simp only [Nat.zero_add]

/-- A write operand that passed its check touches its address. -/
theorem operandTouched_of_checkWriteMode {s : State} {d : Mode} {u : Unit} (h : checkWriteMode d = .ok u) (k : Nat) :
    operandTouched s d k = [operandAddress s d k] :=
  if_neg fun hd => by subst hd; cases h

section Resolved

variable {s : State} (hip : 0 ≤ s.ip.toInt)
include hip

theorem resolveF3_touched {a b d : Mode} {o : OperandsF3} (h : resolveF3 s a b d = .ok o) :
    o.touched = instrCells s 3 ++ dataTouched s 0 [a, b, d] := by
  obtain ⟨_, hd, -⟩ := bind_eq_ok h
  rw [resolveF3_eq hip] at h
  obtain rfl := eq_of_faultsOr_eq_ok h
  simp only [dataTouched, operandTouched_of_checkWriteMode hd, List.append_assoc, List.append_nil]

theorem resolveF2_touched {a b : Mode} {o : OperandsF2} (h : resolveF2 s a b = .ok o) :
    o.touched = instrCells s 2 ++ dataTouched s 0 [a, b] := by
  rw [resolveF2_eq hip] at h
  obtain rfl := eq_of_faultsOr_eq_ok h
  simp only [dataTouched, List.append_assoc, List.append_nil]

theorem resolveF1R_touched {a : Mode} {o : OperandsF1R} (h : resolveF1R s a = .ok o) :
    o.touched = instrCells s 1 ++ dataTouched s 0 [a] := by
  rw [resolveF1R_eq hip] at h
  obtain rfl := eq_of_faultsOr_eq_ok h
  simp only [dataTouched, List.append_nil]

theorem resolveF1W_touched {d : Mode} {o : OperandsF1W} (h : resolveF1W s d = .ok o) :
    o.touched = instrCells s 1 ++ dataTouched s 0 [d] := by
  obtain ⟨_, hd, -⟩ := bind_eq_ok h
  rw [resolveF1W_eq hip] at h
  obtain rfl := eq_of_faultsOr_eq_ok h
  simp only [dataTouched, operandTouched_of_checkWriteMode hd, List.append_nil]

end Resolved

theorem modes_of_store {mk : Mode → Mode → Mode → Instr}
    (family : mk ∈ [Instr.add, Instr.mul, Instr.lt, Instr.eq]) (a b d : Mode) : (mk a b d).modes = [a, b, d] := by
  simp only [List.mem_cons, List.not_mem_nil, or_false] at family
  rcases family with rfl | rfl | rfl | rfl <;> rfl

theorem modes_of_jump {mk : Mode → Mode → Instr} (family : mk ∈ [Instr.jt, Instr.jf]) (a t : Mode) :
    (mk a t).modes = [a, t] := by
  simp only [List.mem_cons, List.not_mem_nil, or_false] at family
  rcases family with rfl | rfl <;> rfl

/-- An instruction that stays in Running grows MLEN over the addresses it touches. -/
theorem Effect.mlen_eq_grow {s t : State} {i : Instr} (h : Effect s i t) (hip : 0 ≤ s.ip.toInt)
    (ht : t.runState = .running) :
    t.mlen = grow s.mlen (instrCells s i.modes.length ++ dataTouched s 0 i.modes) := by
  cases h with
  | fault | starve | halt => cases ht
  | store mk a b d o ip v family resolved =>
    rw [commitStore_mlen, resolveF3_touched hip resolved, modes_of_store family]
    rfl
  | jump mk a b o ip family resolved =>
    rw [commit_mlen, resolveF2_touched hip resolved, modes_of_jump family]
    rfl
  | input d o ip x rest queue resolved => exact congrArg _ (resolveF1W_touched hip resolved)
  | output a o ip resolved => exact congrArg _ (resolveF1R_touched hip resolved)
  | arb a o rb ip resolved => exact congrArg _ (resolveF1R_touched hip resolved)

/-- An instruction that leaves Running leaves MLEN alone (R56). -/
theorem Effect.mlen_eq {s t : State} {i : Instr} (h : Effect s i t) (hs : s.runState = .running)
    (ht : t.runState ≠ .running) : t.mlen = s.mlen := by
  cases h with
  | fault | starve | halt => rfl
  | store | input | output | jump | arb => exact absurd hs ht

/-- Settles O45: fetch and decode faults leave MLEN alone; the rest is the effect of the decoded instruction, and
growth over a list of addresses gives the maximum. -/
theorem memoryGrowsToTheTouchedAddresses : Obligations.MemoryGrowsToTheTouchedAddresses := by
  intro s t h
  obtain ⟨hs, ⟨k, rfl, -⟩ | ⟨hip, i, hi, heffect⟩⟩ := step_faults_or_effect h
  · exact ⟨fun _ => rfl, nofun⟩
  refine ⟨heffect.mlen_eq hs, fun ht => ⟨i, by rwa [instrWord_of_nonneg hip.1] at hi, ?_⟩⟩
  show s.mlen ≤ t.mlen ∧ (∀ x, Touches s i x → x + 1 ≤ t.mlen) ∧
    (t.mlen = s.mlen ∨ ∃ x, Touches s i x ∧ (t.mlen : Int) = x + 1)
  simp only [touches_iff_mem, heffect.mlen_eq_grow hip.1 ht]
  exact ⟨le_grow _ _, fun _ => succ_le_grow, grow_eq_or _ _⟩

end Sys2Proof.Machine
end

section
/-! PROOFS. The statements of spec/50_run_control_and_io.md and spec/70_reset_and_hazards.md: START, the other
transactions, run calls, and that a run depends only on the values enqueued. -/

namespace Sys2Proof.Machine

/-! ## START (R280, R281) -/

theorem hostValue_of_fits {v : Int} (h : fits v) : hostValue v = some (Word.ofInt v) := if_pos h

theorem hostValue_of_not_fits {v : Int} (h : ¬ fits v) : hostValue v = none := if_neg h

theorem hostValue_toInt (w : Word) : hostValue w.toInt = some w := by
  rw [hostValue_of_fits (Word.fits_toInt w), Word.ofInt, BitVec.ofInt_toInt]

theorem hostValues_of_fits {l : List Int} (h : ∀ v ∈ l, fits v) : hostValues l = some (l.map Word.ofInt) := by
  induction l with
  | nil => rfl
  | cons v l ih =>
    obtain ⟨hv, hl⟩ := List.forall_mem_cons.1 h
    simp only [hostValues, hostValue_of_fits hv, ih hl, List.map_cons]

/-- A sequence with a value that does not fit is refused. -/
theorem hostValues_of_not_fits {l : List Int} (h : ∃ v ∈ l, ¬ fits v) : hostValues l = none := by
  induction l with
  | nil => simp at h
  | cons v l ih =>
    rcases List.exists_mem_cons_iff .. |>.1 h with hv | hl
    · simp only [hostValues, hostValue_of_not_fits hv]
    · simp only [hostValues, ih hl]
      cases hostValue v <;> rfl

/-- A sequence that is not refused gives a word for each value. -/
theorem length_of_hostValues {l : List Int} {ws : List Word} (h : hostValues l = some ws) : ws.length = l.length := by
  by_cases hl : ∀ v ∈ l, fits v
  · cases (hostValues_of_fits hl).symm.trans h
    exact List.length_map _
  · push Not at hl
    cases (hostValues_of_not_fits (by simpa using hl)).symm.trans h

theorem start_of_fits {image q0 : List Int} (himage : ∀ v ∈ image, fits v) (hq0 : ∀ v ∈ q0, fits v)
    (hlen : image.length ≤ Config.addrMax + 1) (mode : RunMode) :
    start image mode q0 = .next (startState (image.map Word.ofInt) mode (q0.map Word.ofInt)) := by
  simp only [start, hostValues_of_fits himage, hostValues_of_fits hq0, List.length_map, if_pos hlen]

/-- The cells loaded from an image read as the image does, 0 beyond it. -/
theorem toInt_read_loadFrom {image : List Int} (h : ∀ v ∈ image, fits v) (a : Nat) :
    ((Memory.loadFrom 0 (image.map Word.ofInt)).read a).toInt = image.getD a 0 := by
  rw [Memory.read_loadFrom, if_pos (Nat.zero_le a), Nat.sub_zero]
  by_cases ha : a < image.length
  · simp [ha, Word.toInt_ofInt (h _ (List.getElem_mem ha))]
  · simp [not_lt.1 ha]

theorem map_toInt_map_ofInt {l : List Int} (h : ∀ v ∈ l, fits v) : (l.map Word.ofInt).map BitVec.toInt = l := by
  rw [List.map_map]
  exact (List.map_congr_left fun v hv => Word.toInt_ofInt (h v hv)).trans (List.map_id l)

/-- Settles O36: START answers its state, whose items are the arguments and constants. -/
theorem startGivesResetValues : Obligations.StartGivesResetValues := by
  intro image q0 mode s himage hq0 hlen
  refine ⟨_, start_of_fits himage hq0 hlen mode, toInt_read_loadFrom himage, Memory.wf_loadFrom _ _,
    List.length_map _, rfl, rfl, rfl, rfl, rfl, rfl, rfl, map_toInt_map_ofInt hq0, rfl⟩

/-- Settles O37: each of the three faults of the arguments reaches a refusal of START. -/
theorem illegalStartIsRefused : Obligations.IllegalStartIsRefused := by
  intro image q0 mode s h
  show start image mode q0 = _
  unfold start
  split
  · next im q him hq =>
    rcases h with h | h | h
    · cases (hostValues_of_not_fits h).symm.trans him
    · cases (hostValues_of_not_fits h).symm.trans hq
    · rw [if_neg (by rw [length_of_hostValues him]; exact not_le.2 h)]
  · rfl

/-- Settles O38: both sides are the same state. -/
theorem resetIsAnEmptyStart : Obligations.ResetIsAnEmptyStart := fun _ => rfl

/-! ## ENQUEUE, RESUME, OBSERVE, READ_MEMORY (R212 to R215) -/

theorem enqueue_of_fits {v : Int} {s : State} (hs : s.mode = .cooperative) (hv : fits v) :
    enqueue v s = .next { s with inq := s.inq ++ [Word.ofInt v] } := by
  simp only [enqueue, hs, hostValue_of_fits hv]

theorem enqueue_of_not_fits {v : Int} {s : State} (hv : ¬ fits v) : ∃ r, enqueue v s = .refused r := by
  unfold enqueue
  split
  · exact ⟨_, rfl⟩
  · exact ⟨.illegalArgument, by rw [hostValue_of_not_fits hv]⟩

theorem resume_of_awaiting {s : State} (hs : s.runState = .awaitingInput) :
    resume s = .next { s with runState := .running } := by
  simp only [resume, hs]

theorem resume_of_not_awaiting {s : State} (hs : s.runState ≠ .awaitingInput) :
    resume s = .refused .resumeNotEnabled := by
  unfold resume
  split
  · exact absurd ‹_› hs
  all_goals rfl

/-- Settles O39: each transaction in the case its state is in. -/
theorem hostTransactionEffects : Obligations.HostTransactionEffects := by
  refine ⟨fun v s => enqueue_of_fits, fun v s => enqueue_of_not_fits, fun s => resume_of_awaiting,
    fun s => resume_of_not_awaiting, fun s => ?observe, fun s hs => ?stopped, fun s hs => ?running⟩
  case observe => exact ⟨rfl, rfl, rfl, rfl, rfl, rfl, rfl, List.isEmpty_iff⟩
  case stopped =>
    refine ⟨if_neg hs, _, if_neg hs, rfl, rfl, rfl, by simp, fun a ha => ?_⟩
    simp [ha]
  case running => exact ⟨if_pos hs, if_pos hs⟩

/-! ## Ended computations (R191, R251) -/

theorem ended_iff {s : State} : s.ended = true ↔ s.runState = .halted ∨ s.runState = .faulted := by
  simp [State.ended]

/-- Settles O40: a step needs Running, RESUME needs AwaitingInput, and the other transactions reach INQ's back only. -/
theorem endedStatesAreTerminal : Obligations.EndedStatesAreTerminal := by
  intro e s t hended hstart h
  rw [ended_iff] at hended
  have hrun : s.runState ≠ .running := by rcases hended with hs | hs <;> rw [hs] <;> decide
  have hwait : s.runState ≠ .awaitingInput := by rcases hended with hs | hs <;> rw [hs] <;> decide
  match e with
  | .step => exact absurd (step_eq_next h).1 hrun
  | .host (.start im m q) => exact absurd rfl (hstart im m q)
  | .host .resume => exact absurd (resume_eq_next h).1 hwait
  | .host (.enqueue _) =>
    obtain ⟨-, x, -, rfl⟩ := enqueue_eq_next h
    exact ⟨nofun, nofun, [x], rfl⟩
  | .host .observe =>
    cases h
    exact ⟨nofun, nofun, [], by rw [List.append_nil]⟩
  | .host .readMemory =>
    obtain rfl := transact_readMemory_eq h
    exact ⟨nofun, nofun, [], by rw [List.append_nil]⟩

/-! ## Run calls (R206) -/

theorem runCall_of_not_running {s : State} (hs : s.runState ≠ .running) (fuel : Nat) :
    runCall fuel s = some s := by
  cases fuel <;> exact if_neg hs

/-- A run call from Running takes a step, if it has fuel, and goes on from there. -/
theorem runCall_of_running {s t : State} {fuel : Nat} (hs : s.runState = .running) (h : runCall fuel s = some t) :
    ∃ n u, fuel = n + 1 ∧ step s = .next u ∧ runCall n u = some t := by
  cases fuel with
  | zero => cases (if_pos hs).symm.trans h
  | succ n =>
    rw [runCall, if_pos hs] at h
    split at h
    · exact ⟨n, _, rfl, ‹_›, h⟩
    all_goals cases h

/-- Settles O44: by induction on the fuel; each step of the run call is one step of the run. -/
theorem runCallEndsWhenNotRunning : Obligations.RunCallEndsWhenNotRunning := by
  intro fuel s t h
  induction fuel using Nat.strongRecOn generalizing s with
  | ind fuel ih =>
    by_cases hs : s.runState = .running
    · obtain ⟨n, u, rfl, hstep, hrest⟩ := runCall_of_running hs h
      obtain ⟨ht, k, hk, hrun, hbefore⟩ := ih n n.lt_succ_self u hrest
      refine ⟨ht, k + 1, Nat.succ_le_succ hk, (run_succ hstep k).trans hrun, fun m v hm hv => ?_⟩
      cases m with
      | zero =>
        rw [run_zero] at hv
        cases hv
        exact hs
      | succ m =>
        rw [run_succ hstep] at hv
        exact hbefore m v (Nat.lt_of_succ_lt_succ hm) hv
    · cases (runCall_of_not_running hs fuel).symm.trans h
      refine ⟨hs, 0, fuel.zero_le, run_zero _, fun m _ hm _ => absurd hm m.not_lt_zero⟩

/-! ## Values enqueued earlier change nothing (R207)

A step does the same with more values at the back of INQ, unless it suspends for the lack of them; and then the step
that follows RESUME starts from the state the suspended one started from. -/

/-- The state with more values at the back of INQ. -/
def State.feed (s : State) (q : List Word) : State := { s with inq := s.inq ++ q }

section Feed

variable (s : State) (q : List Word)

@[simp] theorem feed_inq : (s.feed q).inq = s.inq ++ q := rfl
@[simp] theorem feed_nil : s.feed [] = s := by rw [State.feed, List.append_nil]
theorem feed_feed (q' : List Word) : (s.feed q).feed q' = s.feed (q ++ q') := by
  simp only [State.feed, List.append_assoc]

@[simp] theorem resolveF3_feed (a b d : Mode) : resolveF3 (s.feed q) a b d = resolveF3 s a b d := rfl
@[simp] theorem resolveF2_feed (a t : Mode) : resolveF2 (s.feed q) a t = resolveF2 s a t := rfl
@[simp] theorem resolveF1R_feed (a : Mode) : resolveF1R (s.feed q) a = resolveF1R s a := rfl
@[simp] theorem resolveF1W_feed (d : Mode) : resolveF1W (s.feed q) d = resolveF1W s d := rfl
@[simp] theorem nextIp_feed (n : Nat) : nextIp (s.feed q) n = nextIp s n := rfl
@[simp] theorem jumpIp_feed (taken : Bool) (target : Word) :
    jumpIp (s.feed q) taken target = jumpIp s taken target := rfl

end Feed

section Feeding

variable {s t : State} {q : List Word}

/-- The execute phase of a Cooperative IN suspends, or takes the same front value from a longer INQ. -/
theorem takeInput_feed (hs : s.mode = .cooperative) (ip : Word) (o : OperandsF1W) :
    takeInput s ip o = .ok (suspend s) ∨ takeInput (s.feed q) ip o = (·.feed q) <$> takeInput s ip o := by
  cases hq : s.inq with
  | nil => exact .inl (by simp only [takeInput, hq, starved, hs])
  | cons x rest => exact .inr (by simp only [takeInput, feed_inq, hq, List.cons_append]; rfl)

/-- What IN completes with (R150). -/
def inputResult (d : Mode) (s : State) : Except FaultKind State := do
  let o ← resolveF1W s d
  let ip ← nextIp s 2
  takeInput s ip o

theorem exec_input_eq (d : Mode) (s : State) : exec (.input d) s = complete s (inputResult d s) := rfl

theorem inputResult_feed (hs : s.mode = .cooperative) (d : Mode) :
    inputResult d s = .ok (suspend s) ∨ inputResult d (s.feed q) = (·.feed q) <$> inputResult d s := by
  unfold inputResult
  rw [resolveF1W_feed, nextIp_feed]
  cases resolveF1W s d with
  | error k => exact .inr rfl
  | ok o =>
    cases nextIp s 2 with
    | error k => exact .inr rfl
    | ok ip => exact takeInput_feed hs ip o

/-- A Cooperative instruction suspends, or computes the same result with a longer INQ. -/
theorem exec_eq_suspend_or_feed (hs : s.mode = .cooperative) (i : Instr) : exec i s = .next (suspend s) ∨
    ∃ r, exec i s = complete s r ∧ exec i (s.feed q) = complete (s.feed q) ((·.feed q) <$> r) := by
  cases i with
  | add a b d | mul a b d | lt a b d | eq a b d =>
    refine .inr ⟨_, rfl, congrArg (complete _) ?_⟩
    simp only [resolveF3_feed, nextIp_feed, map_bind]
    rfl
  | jt a b | jf a b =>
    refine .inr ⟨_, rfl, congrArg (complete _) ?_⟩
    simp only [resolveF2_feed, jumpIp_feed, map_bind]
    rfl
  | output a | arb a =>
    refine .inr ⟨_, rfl, congrArg (complete _) ?_⟩
    simp only [resolveF1R_feed, nextIp_feed, map_bind]
    rfl
  | input d =>
    rcases inputResult_feed (q := q) hs d with hsuspend | hfeed
    · exact .inl (by rw [exec_input_eq, hsuspend, complete_ok])
    · exact .inr ⟨_, exec_input_eq d s, by rw [exec_input_eq, hfeed]⟩
  | halt => exact .inr ⟨.ok { s with runState := .halted }, rfl, rfl⟩

theorem complete_feed {r : Except FaultKind State} (h : complete s r = .next t) :
    complete (s.feed q) ((·.feed q) <$> r) = .next (t.feed q) := by
  rcases complete_eq_next h with rfl | ⟨k, rfl, rfl⟩ <;> rfl

/-- A Cooperative step that does not suspend does the same with more values at the back of INQ. -/
theorem step_feed (hs : s.mode = .cooperative) (h : step s = .next t) (ht : t.runState ≠ .awaitingInput) :
    step (s.feed q) = .next (t.feed q) := by
  obtain ⟨hrun, ⟨hip, rfl⟩ | ⟨hip, e, he, rfl⟩ | ⟨hip, i, hi, hexec⟩⟩ := step_eq_next h
  · exact step_of_outside hrun hip
  · exact step_of_decode_error (s := s.feed q) hrun hip he
  · rw [step_of_decode_ok (s := s.feed q) hrun hip hi]
    rcases exec_eq_suspend_or_feed (q := q) hs i with hsuspend | ⟨r, hr, hfeed⟩
    · cases hsuspend.symm.trans hexec
      exact absurd rfl ht
    · exact hfeed.trans (complete_feed (hr.symm.trans hexec))

end Feeding

section Drives

variable {s t : State}

theorem awake_of_not_awaiting (h : s.runState ≠ .awaitingInput) : s.awake = s := by
  rw [State.awake, if_neg h]

theorem awake_suspend (h : s.runState = .running) : (suspend s).awake = s := by
  cases s
  cases h
  rfl

theorem awake_resume {u : State} (h : resume s = .next u) : u.awake = s.awake := by
  obtain ⟨hs, rfl⟩ := resume_eq_next h
  rw [State.awake, State.awake, if_pos hs]
  rfl

theorem enqueue_eq_feed {v : Word} {u : State} (h : enqueue v.toInt s = .next u) : u = s.feed [v] := by
  obtain ⟨-, x, hx, rfl⟩ := enqueue_eq_next h
  cases (hostValue_toInt v).symm.trans hx
  rfl

theorem drive_cons {d : Drive} {ds : List Drive} (h : drive (d :: ds) s = some t) :
    ∃ u, act d.event s = .next u ∧ drive ds u = some t := by
  rw [drive] at h
  split at h
  · exact ⟨_, ‹_›, h⟩
  all_goals cases h

/-- Steps alone, from the start with all values enqueued at once and no suspension, reach what a sequence of drives
reaches, a suspension set aside. -/
theorem run_of_drive {ds : List Drive} (hs : s.mode = .cooperative) (h : drive ds s = some t) :
    ∃ n, n ≤ ds.length ∧ Host.Core.run Sys2Proof.core n (s.awake.feed (enqueued ds)) = .next t.awake := by
  induction ds generalizing s with
  | nil =>
    cases h
    exact ⟨0, le_rfl, by rw [enqueued, feed_nil, run_zero]⟩
  | cons d ds ih =>
    obtain ⟨u, hu, hdrive⟩ := drive_cons h
    have hmode : u.mode = .cooperative := by
      have hstart : ∀ im m q, d.event ≠ .host (.start im m q) := by cases d <;> exact nofun
      obtain ⟨-, -, hsame⟩ := monotoneBetweenResets d.event s u hstart hu
      exact hsame.trans hs
    obtain ⟨n, hn, hrun⟩ := ih hmode hdrive
    cases d with
    | enqueue v =>
      obtain rfl := enqueue_eq_feed hu
      refine ⟨n, Nat.le_succ_of_le hn, ?_⟩
      rw [enqueued, ← List.singleton_append, ← feed_feed]
      exact hrun
    | resume => exact ⟨n, Nat.le_succ_of_le hn, by rw [enqueued, ← awake_resume hu]; exact hrun⟩
    | step =>
      have hstep : step s = .next u := hu
      have hrunning := (step_eq_next hstep).1
      rw [awake_of_not_awaiting (s := s) (by rw [hrunning]; decide), enqueued]
      by_cases hu' : u.runState = .awaitingInput
      · obtain rfl := step_eq_suspend hstep hu'
        rw [awake_suspend hrunning] at hrun
        exact ⟨n, Nat.le_succ_of_le hn, hrun⟩
      · rw [awake_of_not_awaiting hu'] at hrun
        exact ⟨n + 1, Nat.succ_le_succ hn, (run_succ (step_feed hs hstep hu') n).trans hrun⟩

end Drives

/-- Settles O42: a Running state has no suspension to set aside. -/
theorem runDependsOnlyOnEnqueuedValues : Obligations.RunDependsOnlyOnEnqueuedValues := by
  intro ds s t hmode hs h
  have key := run_of_drive hmode h
  rwa [awake_of_not_awaiting (s := s) (by rw [hs]; decide)] at key

end Sys2Proof.Machine
end
